-- ==== Sys2Proof/Word.lean ====
section
/-! DEFINITION. The word types of GEOCORE (00_scope.md §5, R65; 30_encoding.md R45, R49) and the classes of a
binary64 pattern (40_numerics.md R70). -/

namespace Sys2Proof

/-- A `u32`: an unsigned grid index (R65). -/
abbrev U32 := BitVec 32

/-- A `u64`: an unsigned code, or whatever a 64-bit port carries (R65, R45). -/
abbrev U64 := BitVec 64

/-- A binary64 value held as its 64-bit pattern (R49, R70). -/
abbrev F64 := BitVec 64

/-- The three wires of `op` (R45). -/
abbrev OpCode := BitVec 3

/-- A request written as one number, `req = [op, a, b]` with `op` uppermost (R45). -/
abbrev RequestWord := BitVec 131

/-- A response written as one number, `r0` above `r1` (R46). -/
abbrev ResponseWord := BitVec 128

/-- The five classes of the table of R70. -/
inductive F64Class where
  | zero
  | subnormal
  | normal
  | infinity
  | nan
  deriving DecidableEq, Repr

end Sys2Proof
end

