-- ==== Sys2Proof/Config.lean ====
section
/-! DEFINITION. What the spec leaves open, as constants without a body: the parameter LATENCY (00_scope.md R5,
70_reset_and_hazards.md R183) and the free values of the port and of the delay line (R182, R184, R185, R187).
Nothing can be proved of the value of any of them, so what is proved holds whatever they are. -/

namespace Sys2Proof.Config

/-- LATENCY, the number of clock cycles from request to response: a natural number, 0 or more, fixed when an
instance is built and left open by the spec (R5, R183). Log 1. -/
opaque latency : Nat

/-- `rsp_r0` in a cycle with `rsp_valid = 0`: any value (R184). Its argument is the number of the cycle. Log 2. -/
opaque portR0 : Nat → U64

/-- `rsp_r1` in a cycle with `rsp_valid = 0`: any value (R184). Log 2. -/
opaque portR1 : Nat → U64

/-- The `r0` field of a slot whose valid bit an edge clears: unspecified (R182, R185(b)). Its arguments are the
number of the edge and of the slot. Log 2. -/
opaque slotR0 : Nat → Nat → U64

/-- The `r1` field of a slot whose valid bit an edge clears: unspecified (R182, R185(b)). Log 2. -/
opaque slotR1 : Nat → Nat → U64

/-- The valid bit of a slot at power-up: unknown (R187, U7). Its argument is the slot. Log 11, log 15. -/
opaque powerUpValid : Nat → Bool

/-- The `r0` field of a slot at power-up: unknown (R187, U7). Log 11. -/
opaque powerUpR0 : Nat → U64

/-- The `r1` field of a slot at power-up: unknown (R187, U7). Log 11. -/
opaque powerUpR1 : Nat → U64

end Sys2Proof.Config
end

