-- ==== Sys2Proof/Syntax.lean ====
section
/-! DEFINITION. The eight operations (30_encoding.md R47), the request as an instruction with its two operands (R45),
and the written syntax of a requester's program with its aliases (R56, R57). -/

namespace Sys2Proof

/-- The eight mnemonics of the operation map (R47), in the order of their codes. -/
inductive Op where
  | norm
  | denorm
  | spread
  | interleave
  | compact
  | deinterleave
  | encode
  | decode
  deriving DecidableEq, Repr

/-- A request: one operation with the two operands its ports carry (R45). Every constructor keeps both operands whole,
also where the operation ignores one or half of one (R48, R50): that it ignores them is a fact about its meaning. -/
inductive Instr where
  /-- NORM, code 000 (R102). -/
  | norm (a b : U64)
  /-- DENORM, code 001 (R109). -/
  | denorm (a b : U64)
  /-- SPREAD, code 010 (R122). -/
  | spread (a b : U64)
  /-- INTERLEAVE, code 011 (R124). -/
  | interleave (a b : U64)
  /-- COMPACT, code 100 (R127). -/
  | compact (a b : U64)
  /-- DEINTERLEAVE, code 101 (R129). -/
  | deinterleave (a b : U64)
  /-- ENCODE, code 110 (R141). -/
  | encode (a b : U64)
  /-- DECODE, code 111 (R142). -/
  | decode (a b : U64)
  deriving DecidableEq, Repr

/-- The request of an operation with operands `a` and `b`. -/
def Op.instr (op : Op) (a b : U64) : Instr :=
  match op with
  | .norm => .norm a b
  | .denorm => .denorm a b
  | .spread => .spread a b
  | .interleave => .interleave a b
  | .compact => .compact a b
  | .deinterleave => .deinterleave a b
  | .encode => .encode a b
  | .decode => .decode a b

/-- The operation of a request. -/
def Instr.op (i : Instr) : Op :=
  match i with
  | .norm _ _ => .norm
  | .denorm _ _ => .denorm
  | .spread _ _ => .spread
  | .interleave _ _ => .interleave
  | .compact _ _ => .compact
  | .deinterleave _ _ => .deinterleave
  | .encode _ _ => .encode
  | .decode _ _ => .decode

/-- The first operand of a request, field `a` (R45). -/
def Instr.a (i : Instr) : U64 :=
  match i with
  | .norm a _ | .denorm a _ | .spread a _ | .interleave a _ => a
  | .compact a _ | .deinterleave a _ | .encode a _ | .decode a _ => a

/-- The second operand of a request, field `b` (R45). -/
def Instr.b (i : Instr) : U64 :=
  match i with
  | .norm _ b | .denorm _ b | .spread _ b | .interleave _ b => b
  | .compact _ b | .deinterleave _ b | .encode _ b | .decode _ b => b

/-- A label of a program line (R56). Its spelling means nothing, so a label is a number. -/
abbrev Label := Nat

/-- Which of the two results a `<label>.r0` or `<label>.r1` operand names (R56). -/
inductive ResultPort where
  | r0
  | r1
  deriving DecidableEq, Repr

/-- A written operand (R56). -/
inductive SrcOperand where
  /-- A 64-bit hex literal. -/
  | hex64 (v : U64)
  /-- A 32-bit hex literal, meaning that value zero-extended. -/
  | hex32 (v : U32)
  /-- `f64:<decimal>`, the decimal being `digits` times ten to the power `exponent`, with a minus sign where `negative`. -/
  | decimal (negative : Bool) (digits : Nat) (exponent : Int)
  /-- `f64:+inf`. -/
  | plusInf
  /-- `f64:-inf`. -/
  | minusInf
  /-- `f64:nan`, pattern 0x7FF8000000000000. -/
  | nan
  /-- `<label>.r0` or `<label>.r1`: the result of the earlier line with that label, forwarded by the requester. -/
  | result (label : Label) (port : ResultPort)
  deriving DecidableEq, Repr

/-- A line of a program (R56); a missing second operand is `none`. -/
structure Line where
  label : Label
  op : Op
  a : SrcOperand
  b : Option SrcOperand
  deriving DecidableEq, Repr

/-- The source's function spellings (R57). -/
inductive Alias where
  | encode
  | decode
  | interleave
  | spread
  | compact
  | compactEven
  deriving DecidableEq, Repr

/-- The one operation an alias expands to (R57). -/
def Alias.op (f : Alias) : Op :=
  match f with
  | .encode => .encode
  | .decode => .decode
  | .interleave => .interleave
  | .spread => .spread
  | .compact => .compact
  | .compactEven => .compact

/-- How many operands the source writes after an alias (R57). -/
def Alias.arity (f : Alias) : Nat :=
  match f with
  | .encode => 2
  | .decode => 1
  | .interleave => 2
  | .spread => 1
  | .compact => 1
  | .compactEven => 1

/-- The line an alias with its written operands expands to, with no change of operands (R57); none where the number of
operands is not the one the source writes. -/
def Alias.expand (f : Alias) (label : Label) (operands : List SrcOperand) : Option Line :=
  match f.arity, operands with
  | 1, [a] => some ⟨label, f.op, a, none⟩
  | 2, [a, b] => some ⟨label, f.op, a, some b⟩
  | _, _ => none

end Sys2Proof
end

