-- ==== Sys2Proof/Machine/State.lean ====
section
/-! DEFINITION. The state of GEOCORE's timed interface (70_reset_and_hazards.md R180, R182), its outcomes and its state
after reset. GEOCORE has no register, program counter, flag or memory (10_state.md R10 to R20). -/

namespace Sys2Proof.Machine

/-- What the requester drives on the input ports in one cycle (R180). -/
structure Inputs where
  rst : Bool
  reqValid : Bool
  reqOp : OpCode
  reqA : U64
  reqB : U64
  deriving DecidableEq, Repr

/-- The requester presents nothing: no reset and no request (R190). What the request wires carry then has no effect
(R181, R188(e)). Log 5. -/
def Inputs.idle : Inputs := ⟨false, false, 0#3, 0#64, 0#64⟩

/-- A response, the pair `(r0, r1)` (30_encoding.md R46). -/
structure Response where
  r0 : U64
  r1 : U64
  deriving DecidableEq, Repr

/-- The response written as one number, `r0` above `r1` (R46). -/
def Response.word (r : Response) : ResponseWord := r.r0 ++ r.r1

/-- A slot of the delay line: a valid bit and a response already computed (R182, R20). -/
structure Slot where
  v : Bool
  rsp : Response
  deriving DecidableEq, Repr

/-- The machine between two rising edges of `clk`. `inp` is what the input ports carry in this cycle and `upcoming` what
the requester drives in the cycles after it; `pipe` is the delay line, slot 0 the newest (R182); `delivered` lists the
responses delivered so far (R191); `edges` counts the edges and is read by the free values only. -/
structure State where
  inp : Inputs
  upcoming : List Inputs
  pipe : List Slot
  delivered : List Response
  edges : Nat
  deriving DecidableEq, Repr

/-- Why a step of GEOCORE could stop with a fault: there is no such reason, so this type has no constructor (R155,
R170). -/
inductive Fault where
  deriving DecidableEq, Repr

/-- Why a step of GEOCORE could be refused. -/
inductive Refusal where
  /-- An instruction without a meaning. No arm of `exec` answers it: all eight operations have their meaning (R53,
  R170). It would be safe. -/
  | notModelled (mnemonic : String)
  deriving DecidableEq, Repr

/-- `n` slots as edge `edge` leaves them when it resets: every valid bit 0, the data unspecified (R185). -/
def clearedPipe (edge n : Nat) : List Slot :=
  (List.range n).map fun k => ⟨false, ⟨Config.slotR0 edge k, Config.slotR1 edge k⟩⟩

/-- The machine right after a reset edge (R22, R186): no response pending, the slots' data unspecified. The requester
drives nothing yet (log 5), nothing has been delivered (log 6), and the reset edge was edge 0 (log 3). -/
def State.reset : State :=
  { inp := Inputs.idle
    upcoming := []
    pipe := clearedPipe 0 Config.latency
    delivered := []
    edges := 1 }

/-- The machine at power-up, before any edge, with the requester holding `rst = 1` for one edge as R187 asks: the slots
hold unknown valid bits and data (log 11). DESIGN CHOICE: where the oldest slot powers up valid, the first edge lists what
the port carried before it as delivered, a response of no request; the spec leaves open whether it counts (log 15). -/
def State.powerUp : State :=
  { inp := ⟨true, false, 0#3, 0#64, 0#64⟩
    upcoming := []
    pipe := (List.range Config.latency).map fun k =>
      ⟨Config.powerUpValid k, ⟨Config.powerUpR0 k, Config.powerUpR1 k⟩⟩
    delivered := []
    edges := 0 }

end Sys2Proof.Machine
end

