-- ==== Sys2Proof/Machine/Operands.lean ====
section
/-! DEFINITION. How an operation reads its operand ports and fills its result ports (30_encoding.md R48 to R52). There
are no other operand forms and no flags (10_state.md R13). -/

namespace Sys2Proof.Machine

/-- A binary64 operand: all 64 wires, every pattern accepted (R49). -/
def operandF64 (port : U64) : F64 := port

/-- A 32-bit operand: wires 31:0, wires 63:32 ignored (R50); `trunc_32` (40_numerics.md R68). -/
def operandIndex (port : U64) : U32 := port.setWidth 32

/-- A 64-bit code operand: all 64 wires (R48). -/
def operandCode (port : U64) : U64 := port

/-- A binary64 result: the whole port (R49). -/
def resultF64 (x : F64) : U64 := x

/-- A 32-bit result, zero-extended to the port (R51); `zext_64` (40_numerics.md R67). -/
def resultIndex (i : U32) : U64 := i.setWidth 64

/-- A 64-bit code result: the whole port (R48). -/
def resultCode (c : U64) : U64 := c

/-- A result port the operation does not use is 0 on all wires (R51). -/
def unusedResult : U64 := 0#64

end Sys2Proof.Machine
end

