-- ==== Sys2Proof/WellFormed.lean ====
section
/-! DEFINITION. Which requests and which program lines are well formed. Every request is (30_encoding.md R53): the only
checks are those of the written syntax of programs (R56). -/

namespace Sys2Proof

/-- Every request is legal: all eight codes are assigned and every operand value is accepted (R49, R50, R53). -/
def Instr.wellFormed (_ : Instr) : Bool := true

/-- A `<label>.r<n>` operand names an EARLIER line (R56). -/
def SrcOperand.wellFormed (earlier : List Label) (x : SrcOperand) : Bool :=
  match x with
  | .result l _ => earlier.contains l
  | _ => true

/-- A line uses only earlier labels, and its own label is not one of them, so that a label names one line (R56; log 9). -/
def Line.wellFormed (earlier : List Label) (ln : Line) : Bool :=
  !earlier.contains ln.label && ln.a.wellFormed earlier && (ln.b.all fun x => x.wellFormed earlier)

/-- A program, read after lines with the labels `earlier`, is well formed where each line is (R56). -/
def programWellFormed (earlier : List Label) : List Line → Bool
  | [] => true
  | ln :: rest => ln.wellFormed earlier && programWellFormed (ln.label :: earlier) rest

end Sys2Proof
end

