-- ==== Sys2Proof/Decode.lean ====
section
/-! DEFINITION. The decoder of a request (30_encoding.md R45, R47, R53) and, after it, the encoder. A request word is
`op` above `a` above `b`. The decoder is total and rejects nothing (R53). -/

namespace Sys2Proof

/-- Field `op`, bits 130:128 of the request word (R45). -/
def opField (w : RequestWord) : OpCode := w.extractLsb' 128 3

/-- Field `a`, bits 127:64 of the request word (R45). -/
def aField (w : RequestWord) : U64 := w.extractLsb' 64 64

/-- Field `b`, bits 63:0 of the request word (R45). -/
def bField (w : RequestWord) : U64 := w.extractLsb' 0 64

/-- The operation map, read from the code (R47). -/
def opOfCode (c : OpCode) : Op :=
  match c.toFin with
  | 0 => .norm
  | 1 => .denorm
  | 2 => .spread
  | 3 => .interleave
  | 4 => .compact
  | 5 => .deinterleave
  | 6 => .encode
  | 7 => .decode

/-- The request on the three ports `req_op`, `req_a`, `req_b` (R45, R47). -/
def decodePorts (op : OpCode) (a b : U64) : Instr := (opOfCode op).instr a b

/-- The request a request word stands for (R45). -/
def decodeWord (w : RequestWord) : Instr := decodePorts (opField w) (aField w) (bField w)

/-- The request word of a number of `nbits` bits: its bits at and above `nbits` are 0, and a bit above 130 belongs to
no wire (R45; log 8). -/
def tableRequest (nbits w : Nat) : RequestWord := BitVec.ofNat 131 (w % 2 ^ nbits)

/-- The instruction the decoder reads from a number laid out as the opcode table numbers it: bit 0 of the number is bit
0 of the request word (R45). -/
def decodeTableWord (nbits w : Nat) : Option Instr := some (decodeWord (tableRequest nbits w))

/-- The operation map, read from the mnemonic (R47). -/
def codeOfOp (op : Op) : OpCode :=
  match op with
  | .norm => 0b000#3
  | .denorm => 0b001#3
  | .spread => 0b010#3
  | .interleave => 0b011#3
  | .compact => 0b100#3
  | .deinterleave => 0b101#3
  | .encode => 0b110#3
  | .decode => 0b111#3

/-- The request word of an instruction, `op` above `a` above `b` (R45). -/
def encode (i : Instr) : RequestWord := codeOfOp i.op ++ i.a ++ i.b

end Sys2Proof
end

