-- ==== Sys2Proof/Machine/Ops.lean ====
section
/-! DEFINITION. The operations every step is made of: the request on the ports (70_reset_and_hazards.md R181), the three
kinds of rising edge of the machine of R182, and reset (R185). GEOCORE has no memory, no register and no exception, so
there is no operation over them (20_memory.md R30, 10_state.md R11, 60_exceptions.md R155, R159). -/

namespace Sys2Proof.Machine

/-- The request accepted at the coming edge, read from the three request ports of this cycle, where there is one:
`req_valid = 1` and `rst = 0` (R181). -/
def State.presented (s : State) : Option Instr :=
  if s.inp.reqValid && !s.inp.rst then some (decodePorts s.inp.reqOp s.inp.reqA s.inp.reqB) else none

/-- The slot whose response the port carries in the cycle that an edge ends: the oldest slot of the delay line, or,
where the line has no slot (LATENCY = 0), the one that would enter it at this edge (R182). -/
def State.outgoing (s : State) (entering : Slot) : Slot := s.pipe.getLastD entering

/-- The responses so far, with the outgoing slot's where it is valid (R182, R191). That a slot valid since power-up counts
too is the model's choice (log 15). -/
def logDelivery (delivered : List Response) (out : Slot) : List Response :=
  if out.v then delivered ++ [out.rsp] else delivered

/-- A rising edge that leaves `pipe` in the delay line after the cycle in which `out` was on the response port. The
requester goes on to its next cycle; past its script it presents nothing (log 4). -/
def State.edge (s : State) (pipe : List Slot) (out : Slot) : State :=
  { inp := s.upcoming.headD Inputs.idle
    upcoming := s.upcoming.tail
    pipe := pipe
    delivered := logDelivery s.delivered out
    edges := s.edges + 1 }

/-- A rising edge with `rst = 0`: every slot moves one place on, `entering` becomes slot 0 (R182). With LATENCY = 0
nothing is stored. -/
def State.shiftIn (s : State) (entering : Slot) : State :=
  s.edge ((entering :: s.pipe).dropLast) (s.outgoing entering)

/-- The edge that accepts a request whose response is `r` (R181, R182). -/
def State.accept (s : State) (r : Response) : State := s.shiftIn ⟨true, r⟩

/-- A slot that enters with valid bit 0: its data is unspecified (R182; log 2). -/
def State.bubble (s : State) : Slot := ⟨false, ⟨Config.slotR0 s.edges 0, Config.slotR1 s.edges 0⟩⟩

/-- The edge with `rst = 0` and `req_valid = 0` (R182). -/
def State.idleEdge (s : State) : State := s.shiftIn s.bubble

/-- The edge with `rst = 1`: every valid bit becomes 0, the data unspecified, and a request presented with it is not
accepted (R182, R185). What the port carried in the cycle this edge ends was still delivered: with LATENCY at least 1 the
outputs are a function of the delay line only; with LATENCY = 0, `rsp_valid` was 0 (R182; DEDUCED, log 12). DESIGN CHOICE:
at the first reset edge after power-up this takes in what an unknown valid bit put on the port (R187; log 15). -/
def State.resetEdge (s : State) : State :=
  s.edge (clearedPipe s.edges s.pipe.length) (s.outgoing s.bubble)

/-- The machine with the requester's next cycles scripted: `cycles` from the present one on (R190). -/
def State.scripted (s : State) (cycles : List Inputs) : State :=
  { s with inp := cycles.headD Inputs.idle, upcoming := cycles.tail }

/-- A cycle in which the requester presents the request word `w` (R45, R181). -/
def requestCycle (w : RequestWord) : Inputs := ⟨false, true, opField w, aField w, bField w⟩

end Sys2Proof.Machine
end

