-- ==== Sys2Proof/Machine/BitInterleaver.lean ====
section
/-! DEFINITION. The BIT INTERLEAVER and its operations SPREAD, INTERLEAVE, COMPACT and DEINTERLEAVE
(42_bit_interleaver.md R120 to R132). -/

namespace Sys2Proof.Machine

/-- Bits 0 to `n - 1` of `v`, bit `i` moved to bit `2 i`, every other bit 0. -/
def spreadLow (v : U32) : Nat → U64
  | 0 => 0#64
  | n + 1 => spreadLow v n ||| ((BitVec.ofBool (v.getLsbD n)).setWidth 64 <<< (2 * n))

/-- `spread`, by its bit-level statement, which is the definition (R120). -/
def spread (v : U32) : U64 := spreadLow v 32

/-- One OR-shift-AND stage of the network of R121. -/
def spreadStage (k : Nat) (mask r : U64) : U64 := (r ||| (r <<< k)) &&& mask

/-- The fixed network that computes `spread` (R121). -/
def spreadNetwork (v : U32) : U64 :=
  let r := v.setWidth 64
  let r := spreadStage 16 0x0000FFFF0000FFFF#64 r
  let r := spreadStage 8 0x00FF00FF00FF00FF#64 r
  let r := spreadStage 4 0x0F0F0F0F0F0F0F0F#64 r
  let r := spreadStage 2 0x3333333333333333#64 r
  spreadStage 1 0x5555555555555555#64 r

/-- `interleave`: x on the even positions, y on the odd ones (R123). -/
def interleave (x y : U32) : U64 := spread x ||| (spread y <<< 1)

/-- Bits 0, 2, …, `2 (n - 1)` of `c`, bit `2 i` moved to bit `i`. -/
def compactLow (c : U64) : Nat → U32
  | 0 => 0#32
  | n + 1 => compactLow c n ||| ((BitVec.ofBool (c.getLsbD (2 * n))).setWidth 32 <<< n)

/-- `compact`, by its bit-level statement, which is the definition; all 32 even positions are read (R125). -/
def compact (c : U64) : U32 := compactLow c 32

/-- One OR-shift-right-AND stage of the network of R126. -/
def compactStage (k : Nat) (mask r : U64) : U64 := (r ||| (r >>> k)) &&& mask

/-- The fixed network that computes `compact` (R126). -/
def compactNetwork (c : U64) : U32 :=
  let r := c &&& 0x5555555555555555#64
  let r := compactStage 1 0x3333333333333333#64 r
  let r := compactStage 2 0x0F0F0F0F0F0F0F0F#64 r
  let r := compactStage 4 0x00FF00FF00FF00FF#64 r
  let r := compactStage 8 0x0000FFFF0000FFFF#64 r
  let r := compactStage 16 0x00000000FFFFFFFF#64 r
  r.setWidth 32

/-- `deinterleave`: axis x from the even positions, axis y from the odd ones (R128). -/
def deinterleave (c : U64) : U32 × U32 := (compact c, compact (c >>> 1))

/-- The response of SPREAD (R122). -/
def spreadResponse (a _b : U64) : Response :=
  ⟨resultCode (spread (operandIndex a)), unusedResult⟩

/-- The response of INTERLEAVE (R124). -/
def interleaveResponse (a b : U64) : Response :=
  ⟨resultCode (interleave (operandIndex a) (operandIndex b)), unusedResult⟩

/-- The response of COMPACT (R127). -/
def compactResponse (a _b : U64) : Response :=
  ⟨resultIndex (compact (operandCode a)), unusedResult⟩

/-- The response of DEINTERLEAVE (R129). -/
def deinterleaveResponse (a _b : U64) : Response :=
  ⟨resultIndex (deinterleave (operandCode a)).1, resultIndex (deinterleave (operandCode a)).2⟩

/-- SPREAD (R122). -/
def execSpread (a b : U64) (s : State) : Host.Outcome State Fault Refusal :=
  .next (s.accept (spreadResponse a b))

/-- INTERLEAVE (R124). -/
def execInterleave (a b : U64) (s : State) : Host.Outcome State Fault Refusal :=
  .next (s.accept (interleaveResponse a b))

/-- COMPACT (R127). -/
def execCompact (a b : U64) (s : State) : Host.Outcome State Fault Refusal :=
  .next (s.accept (compactResponse a b))

/-- DEINTERLEAVE (R129). -/
def execDeinterleave (a b : U64) (s : State) : Host.Outcome State Fault Refusal :=
  .next (s.accept (deinterleaveResponse a b))

end Sys2Proof.Machine
end

