-- ==== Sys2Proof/Machine/Constants.lean ====
section
/-! DEFINITION. The hardwired constants of GEOCORE, by their binary64 patterns, which are the normative form
(10_state.md R14 to R17). -/

namespace Sys2Proof.Machine

/-- MIN_LAT, -85.05112878 (R15). -/
def minLat : F64 := 0xC0554345B1A57F00#64

/-- MAX_LAT, 85.05112878 (R15). -/
def maxLat : F64 := 0x40554345B1A57F00#64

/-- MIN_LON, -180 (R15). -/
def minLon : F64 := 0xC066800000000000#64

/-- MAX_LON, 180 (R15). -/
def maxLon : F64 := 0x4066800000000000#64

/-- LAT_RANGE, twice MAX_LAT (R16). -/
def latRange : F64 := 0x40654345B1A57F00#64

/-- LON_RANGE, 360 (R16). -/
def lonRange : F64 := 0x4076800000000000#64

/-- SCALE, 2 to the power 26 (R17). -/
def scale : F64 := 0x4190000000000000#64

/-- TWO, the divisor of the midpoint (R17). -/
def two : F64 := 0x4000000000000000#64

end Sys2Proof.Machine
end

