-- ==== Sys2Proof/Machine/Numerics.lean ====
section
/-! DEFINITION. binary64 (40_numerics.md R70 to R81): the format, the rounding function and the six functions the
operations are written in. Real values are exact rationals: every value that occurs is one. No function sets a flag or
raises anything (R81). -/

namespace Sys2Proof.Machine

/-! ## Format (R70) -/

/-- The sign bit `p[63]`; `sgn` of R73. -/
def sgn (p : F64) : Bool := p.getLsbD 63

/-- The biased exponent `p[62:52]` (R70). -/
def expField (p : F64) : Nat := (p.extractLsb' 52 11).toNat

/-- The fraction `p[51:0]` (R70). -/
def fracField (p : F64) : Nat := (p.extractLsb' 0 52).toNat

/-- The class of a pattern (R70). -/
def classify (p : F64) : F64Class :=
  if expField p = 2047 then (if fracField p = 0 then .infinity else .nan)
  else if expField p = 0 then (if fracField p = 0 then .zero else .subnormal)
  else .normal

/-- The pattern is a NaN; which one is not tracked (R79). -/
def isNaN (p : F64) : Bool := classify p == .nan

/-- The pattern is an infinity. -/
def isInf (p : F64) : Bool := classify p == .infinity

/-- "Finite" means zero, subnormal or normal (R70). -/
def isFinite (p : F64) : Bool := !isNaN p && !isInf p

/-- Two to an integer power, exactly (00_scope.md §5). Irreducible so that a proof does not unfold it by accident: its
lemmas are in Laws/Numerics.lean, and the kernel evaluates it all the same. -/
@[irreducible] def pow2 : Int → ℚ
  | .ofNat n => ((2 ^ n : ℕ) : ℚ)
  | .negSucc n => mkRat 1 (2 ^ (n + 1))

/-- The absolute value of a finite pattern (R70); 0 for the patterns that have none. -/
def magnitude (p : F64) : ℚ :=
  match classify p with
  | .zero => 0
  | .subnormal => (fracField p : ℚ) * pow2 (-1074)
  | .normal => ((2 ^ 52 + fracField p : ℕ) : ℚ) * pow2 ((expField p : Int) - 1075)
  | .infinity => 0
  | .nan => 0

/-- `val(p)`, the real value of a finite pattern (R70). -/
def val (p : F64) : ℚ := if sgn p then -magnitude p else magnitude p

/-- A pattern put together from its three fields (R70). -/
def packF64 (s : Bool) (e : BitVec 11) (f : BitVec 52) : F64 := BitVec.ofBool s ++ e ++ f

/-- The zero of sign `s`. -/
def zeroF64 (s : Bool) : F64 := packF64 s 0#11 0#52

/-- The infinity of sign `s`. -/
def infF64 (s : Bool) : F64 := packF64 s 0x7FF#11 0#52

/-- The pattern "NaN" stands for as a result (40_numerics.md §3). -/
def nanF64 : F64 := 0x7FF8000000000000#64

/-- `neg(p)`: `p` with bit 63 inverted (40_numerics.md §3). -/
def negF64 (p : F64) : F64 := p ^^^ 0x8000000000000000#64

/-! ## Rounding (R71) -/

/-- `floor(log2(m))` for a positive rational `m`. The number of bits of the numerator less that of the denominator is it or
one more. -/
def floorLog2 (m : ℚ) : Int :=
  let e : Int := (Nat.log2 m.num.natAbs : Int) - (Nat.log2 m.den : Int)
  if pow2 e ≤ m then e else e - 1

/-- `E` at the start of R71: the binade of `m`, clamped at the subnormal range. -/
def binade (m : ℚ) : Int := max (floorLog2 m) (-1022)

/-- The nearest integer to `n ≥ 0`, ties to even: `k` after the fourth line of R71. -/
def nearestEven (n : ℚ) : Nat :=
  let k := n.floor.toNat
  if n - (k : ℚ) > 1 / 2 ∨ (n - (k : ℚ) = 1 / 2 ∧ k % 2 = 1) then k + 1 else k

/-- The pattern of `k` units of the binade `E`, where `k` is at most 2^53: the last four lines of R71. -/
def packRounded (s : Bool) (E : Int) (k : Nat) : F64 :=
  let E' := if k = 2 ^ 53 then E + 1 else E
  let k' := if k = 2 ^ 53 then 2 ^ 52 else k
  if E' > 1023 then infF64 s
  else if k' < 2 ^ 52 then packF64 s 0#11 (BitVec.ofNat 52 k')
  else packF64 s (BitVec.ofNat 11 (E' + 1023).toNat) (BitVec.ofNat 52 (k' - 2 ^ 52))

/-- `round64(s, m)` for a magnitude `m > 0`: roundTiesToEven (R71). -/
def round64 (s : Bool) (m : ℚ) : F64 :=
  let E := binade m
  packRounded s E (nearestEven (m / pow2 (E - 52)))

/-! ## The six functions (R73 to R78) -/

/-- `fadd`, binary64 addition (R73). -/
def fadd (x y : F64) : F64 :=
  if isNaN x || isNaN y then nanF64
  else if isInf x then (if isInf y && (sgn x != sgn y) then nanF64 else x)
  else if isInf y then y
  else
    let r := val x + val y
    if r = 0 then zeroF64 (sgn x && sgn y) else round64 (decide (r < 0)) |r|

/-- `fsub`, binary64 subtraction (R74). -/
def fsub (x y : F64) : F64 := fadd x (negF64 y)

/-- `fmul`, binary64 multiplication (R75). -/
def fmul (x y : F64) : F64 :=
  let s := sgn x != sgn y
  if isNaN x || isNaN y then nanF64
  else if isInf x || isInf y then
    (if classify x == .zero || classify y == .zero then nanF64 else infF64 s)
  else
    let r := magnitude x * magnitude y
    if r = 0 then zeroF64 s else round64 s r

/-- `fdiv`, binary64 division (R76). -/
def fdiv (x y : F64) : F64 :=
  let s := sgn x != sgn y
  if isNaN x || isNaN y then nanF64
  else if isInf x then (if isInf y then nanF64 else infF64 s)
  else if isInf y then zeroF64 s
  else if classify y == .zero then (if classify x == .zero then nanF64 else infF64 s)
  else if classify x == .zero then zeroF64 s
  else round64 s (magnitude x / magnitude y)

/-- `u2f`, an integer from 0 to 2^32 to binary64, exactly (R77). -/
def u2f (n : Nat) : F64 := if n = 0 then zeroF64 false else round64 false (n : ℚ)

/-- A rational truncated toward zero: the fraction is discarded whatever it is (R78). -/
def truncate (x : ℚ) : Int := if x < 0 then -((-x).floor) else x.floor

/-- An integer to `u32`, saturating at both ends (R78, decision D12). -/
def saturateU32 (n : Int) : U32 :=
  if n < 0 then 0x00000000#32
  else if n ≥ 2 ^ 32 then 0xFFFFFFFF#32
  else BitVec.ofNat 32 n.toNat

/-- `f2u32`: truncation toward zero, saturation out of range, NaN to 0 (R78). -/
def f2u32 (x : F64) : U32 :=
  if isNaN x then 0x00000000#32
  else if isInf x then (if sgn x then 0x00000000#32 else 0xFFFFFFFF#32)
  else saturateU32 (truncate (val x))

end Sys2Proof.Machine
end

