-- ==== Sys2Proof/Machine/GridNormalizer.lean ====
section
/-! DEFINITION. The GRID NORMALIZER and its operations NORM and DENORM (41_grid_normalizer.md R100 to R113). -/

namespace Sys2Proof.Machine

/-- The forward function of one axis, its three steps left to right, nothing validated and nothing clamped (R101,
R103). -/
def normAxis (v min range : F64) : U32 :=
  let t := fsub v min
  let u := fmul scale t
  let n := fdiv u range
  f2u32 n

/-- Latitude to latitude index (R100, R101). -/
def normLat (v : F64) : U32 := normAxis v minLat latRange

/-- Longitude to longitude index (R100, R101). -/
def normLon (v : F64) : U32 := normAxis v minLon lonRange

/-- The lower boundary of a cell, `MIN + RANGE × (k / 2^26)` for the 33-bit number `k`, in the order of R108. The upper
boundary of cell `i` is that of `k = i + 1`. -/
def cellBoundary (k : Nat) (min range : F64) : F64 :=
  let q := fdiv (u2f k) scale
  let p := fmul range q
  fadd min p

/-- The inverse function of one axis: the midpoint of the two cell boundaries. `i + 1` is exact and does not wrap (R108,
40_numerics.md R69). -/
def denormAxis (i : U32) (min range : F64) : F64 :=
  let low := cellBoundary i.toNat min range
  let high := cellBoundary (i.toNat + 1) min range
  let s := fadd low high
  fdiv s two

/-- Latitude index to latitude (R108). -/
def denormLat (i : U32) : F64 := denormAxis i minLat latRange

/-- Longitude index to longitude (R108). -/
def denormLon (i : U32) : F64 := denormAxis i minLon lonRange

/-- The response of NORM (R102). -/
def normResponse (a b : U64) : Response :=
  ⟨resultIndex (normLat (operandF64 a)), resultIndex (normLon (operandF64 b))⟩

/-- The response of DENORM (R109). -/
def denormResponse (a b : U64) : Response :=
  ⟨resultF64 (denormLat (operandIndex a)), resultF64 (denormLon (operandIndex b))⟩

/-- NORM (R102). -/
def execNorm (a b : U64) (s : State) : Host.Outcome State Fault Refusal :=
  .next (s.accept (normResponse a b))

/-- DENORM (R109). -/
def execDenorm (a b : U64) (s : State) : Host.Outcome State Fault Refusal :=
  .next (s.accept (denormResponse a b))

end Sys2Proof.Machine
end

