-- ==== Sys2Proof/Machine/EncodeDecode.lean ====
section
/-! DEFINITION. The compositions and their operations ENCODE and DECODE (43_encode_decode.md R140 to R147). The latitude
index is axis x, on the even positions (R140). -/

namespace Sys2Proof.Machine

/-- `encode`: the indices are not masked before they are interleaved (R141). -/
def encodeCode (a b : F64) : U64 := interleave (normLat a) (normLon b)

/-- `decode`: all 64 bits of the code are used (R142, R144). -/
def decodeCode (c : U64) : F64 × F64 := (denormLat (compact c), denormLon (compact (c >>> 1)))

/-- The response of ENCODE (R141). -/
def encodeResponse (a b : U64) : Response :=
  ⟨resultCode (encodeCode (operandF64 a) (operandF64 b)), unusedResult⟩

/-- The response of DECODE (R142). -/
def decodeResponse (a _b : U64) : Response :=
  ⟨resultF64 (decodeCode (operandCode a)).1, resultF64 (decodeCode (operandCode a)).2⟩

/-- ENCODE (R141). -/
def execEncode (a b : U64) (s : State) : Host.Outcome State Fault Refusal :=
  .next (s.accept (encodeResponse a b))

/-- DECODE (R142). -/
def execDecode (a b : U64) (s : State) : Host.Outcome State Fault Refusal :=
  .next (s.accept (decodeResponse a b))

end Sys2Proof.Machine
end

