-- ==== Sys2Proof/Machine/Dispatch.lean ====
section
/-! DEFINITION. The dispatch of an accepted request to its meaning, one arm per operation (30_encoding.md R47, R48). -/

namespace Sys2Proof.Machine

def exec (i : Instr) (s : State) : Host.Outcome State Fault Refusal :=
  match i with
  | .norm a b => Sys2Proof.Machine.execNorm a b s
  | .denorm a b => Sys2Proof.Machine.execDenorm a b s
  | .spread a b => Sys2Proof.Machine.execSpread a b s
  | .interleave a b => Sys2Proof.Machine.execInterleave a b s
  | .compact a b => Sys2Proof.Machine.execCompact a b s
  | .deinterleave a b => Sys2Proof.Machine.execDeinterleave a b s
  | .encode a b => Sys2Proof.Machine.execEncode a b s
  | .decode a b => Sys2Proof.Machine.execDecode a b s

end Sys2Proof.Machine
end

