-- ==== Sys2Proof/Machine/Step.lean ====
section
/-! DEFINITION. One rising edge of `clk` (70_reset_and_hazards.md R182): reset, or the request the ports present, or an
idle edge. -/

namespace Sys2Proof.Machine

/-- One rising edge of `clk`: with `rst = 1` the reset edge; with `rst = 0` and `req_valid = 1` the meaning of the request
on the ports; otherwise the idle edge (R181, R182, R185). -/
def step (s : State) : Host.Outcome State Fault Refusal :=
  if s.inp.rst then .next s.resetEdge
  else
    match s.presented with
    | some i => exec i s
    | none => .next s.idleEdge

/-- The state `s` in whose present cycle the requester presents, without reset, the request that the number `w` of
`nbits` bits stands for: the next step accepts exactly it. Nothing else changes. Log 7, log 8. -/
def State.withFetchWord (s : State) (nbits w : Nat) : State :=
  { s with inp := requestCycle (tableRequest nbits w) }

end Sys2Proof.Machine
end

