-- ==== Sys2Proof/Machine/Respond.lean ====
section
/-! DEFINITION. The untimed machine, `exec(op, a, b) = (r0, r1)` of 30_encoding.md R48, and the response port of a cycle
as a view of the state (70_reset_and_hazards.md R180, R182, R184). -/

namespace Sys2Proof.Machine

/-- The total function from a request to its response (R48, R6). -/
def respond (i : Instr) : Response :=
  match i with
  | .norm a b => normResponse a b
  | .denorm a b => denormResponse a b
  | .spread a b => spreadResponse a b
  | .interleave a b => interleaveResponse a b
  | .compact a b => compactResponse a b
  | .deinterleave a b => deinterleaveResponse a b
  | .encode a b => encodeResponse a b
  | .decode a b => decodeResponse a b

/-- `rsp_valid` in this cycle: with LATENCY at least 1 a function of the delay line only, with LATENCY = 0 of the inputs
of the same cycle (R182). -/
def State.rspValid (s : State) : Bool :=
  match s.pipe.getLast? with
  | some slot => slot.v
  | none => s.inp.reqValid && !s.inp.rst

/-- `rsp_r0` and `rsp_r1` in this cycle (R182); any value while `rsp_valid = 0` (R184; log 2). -/
def State.rspPort (s : State) : Response :=
  if s.rspValid then
    match s.pipe.getLast? with
    | some slot => slot.rsp
    | none => respond (decodePorts s.inp.reqOp s.inp.reqA s.inp.reqB)
  else ⟨Config.portR0 s.edges, Config.portR1 s.edges⟩

/-- The responses of the requests accepted and not yet answered, the oldest first: the data of the valid slots (R182). -/
def State.outstanding (s : State) : List Response :=
  (s.pipe.reverse.filter fun slot => slot.v).map fun slot => slot.rsp

end Sys2Proof.Machine
end

