-- ==== Sys2Proof/Machine/Requester.lean ====
section
/-! DEFINITION. The requester's side: the meaning of written operands and programs (30_encoding.md R56, R57) and how a
list of requests is presented (70_reset_and_hazards.md R190, R191). It is the environment, not state of GEOCORE: a result
forwarded into a later operand is wiring in the requester (R56). -/

namespace Sys2Proof.Machine

/-- Ten to an integer power. -/
def pow10 : Int → ℚ
  | .ofNat n => ((10 ^ n : ℕ) : ℚ)
  | .negSucc n => mkRat 1 (10 ^ (n + 1))

/-- The binary64 pattern nearest a decimal, ties to even (R56); a decimal of value zero gives the zero of its sign
(log 10). -/
def decimalF64 (negative : Bool) (digits : Nat) (exponent : Int) : F64 :=
  if digits = 0 then zeroF64 negative else round64 negative ((digits : ℚ) * pow10 exponent)

/-- The responses so far, each with the label of its line. -/
abbrev Answers := List (Label × Response)

/-- The value of a written operand, given the answers to the earlier lines (R56); none for a label no earlier line has. -/
def SrcOperand.value (answers : Answers) (x : SrcOperand) : Option U64 :=
  match x with
  | .hex64 v => some v
  | .hex32 v => some (v.setWidth 64)
  | .decimal negative digits exponent => some (decimalF64 negative digits exponent)
  | .plusInf => some (infF64 false)
  | .minusInf => some (infF64 true)
  | .nan => some nanF64
  | .result l .r0 => (answers.lookup l).map Response.r0
  | .result l .r1 => (answers.lookup l).map Response.r1

/-- The request a line is assembled to; a missing second operand is 0 (R56). -/
def assembleLine (answers : Answers) (ln : Line) : Option Instr := do
  let a ← SrcOperand.value answers ln.a
  let b ← match ln.b with
    | none => some 0#64
    | some x => SrcOperand.value answers x
  return ln.op.instr a b

/-- The untimed run of a program: its responses in order, each line assembled with the answers to the earlier ones (R56,
R192); none where a line is not well formed. -/
def answerLines (answers : Answers) : List Line → Option Answers
  | [] => some []
  | ln :: rest => do
    let i ← assembleLine answers ln
    let r := respond i
    let later ← answerLines ((ln.label, r) :: answers) rest
    return (ln.label, r) :: later

/-- The cycle in which the requester presents a request (R190). -/
def presentCycle (i : Instr) : Inputs := requestCycle (encode i)

/-- The requester presents a list of requests on consecutive cycles, then nothing (R191). -/
def State.presenting (s : State) (requests : List Instr) : State :=
  s.scripted (requests.map presentCycle)

end Sys2Proof.Machine
end

