-- ==== Sys2Proof/Safety.lean ====
section
/-! DEFINITION. The words claims are stated in: runs, what one edge does, the invariant, and the order and the domain of
coordinates. On GEOCORE every run is safe: no step faults or is refused (60_exceptions.md R155, R170). -/

namespace Sys2Proof.Machine

/-- `k` steps lead from `s` to `t`. -/
def StepsTo : Nat → State → State → Prop
  | 0, s, t => s = t
  | k + 1, s, t => ∃ u, step s = .next u ∧ StepsTo k u t

/-- A safe step: it answers a next state (R155, R170). -/
def StepsSafely (s : State) : Prop := ∃ t, step s = .next t

/-- What the requester drives from the present cycle on: this cycle's inputs, then the script. -/
def State.script (s : State) : List Inputs := s.inp :: s.upcoming

/-- `t` is `s` after an edge that accepts a request with response `r` (70_reset_and_hazards.md R182): the response enters
the delay line as slot 0, valid, and every other slot moves one place on; the response the port carried in the cycle the
edge ends, if any, is delivered; the requester goes on to its next cycle. With LATENCY = 0 nothing is stored and the port
carried `r` itself. The clauses on the deliveries (log 6, log 12, log 15), the script (log 4) and the count of edges
(log 3) say what the model does with its own fields. -/
def Accepts (s : State) (r : Response) (t : State) : Prop :=
  t.pipe = ((⟨true, r⟩ : Slot) :: s.pipe).take s.pipe.length ∧
  t.delivered = s.delivered ++
    (match s.pipe.getLast? with
      | none => [r]
      | some slot => if slot.v then [slot.rsp] else []) ∧
  t.script = (match s.upcoming with
      | [] => [Inputs.idle]
      | c :: later => c :: later) ∧
  t.edges = s.edges + 1

/-- What the requester must see of a script by the rules alone, for LATENCY `latency` and an empty delay line at its
start: the responses of its accepted requests, in order, less those a reset discards, which are those followed by a reset
at one of the next `latency - 1` edges, before their own response is on the port (R181, R182, R185, R192). That a response on the port in a cycle with `rst = 1`
counts is DEDUCED (log 12). -/
def expectedResponses (latency : Nat) : List Inputs → List Response
  | [] => []
  | c :: later =>
    (if c.reqValid && !c.rst && (later.take (latency - 1)).all (fun d => !d.rst) then
      [respond (decodePorts c.reqOp c.reqA c.reqB)] else []) ++ expectedResponses latency later

/-- Two cycles of the requester with the same `rst` and `req_valid`; the request wires may differ (R183). -/
def Inputs.SameTiming (c d : Inputs) : Prop := c.rst = d.rst ∧ c.reqValid = d.reqValid

/-- Two states whose scripts and delay lines agree in everything but what is computed: the same `rst` and `req_valid` in
every cycle and the same valid bits (R183, R189(c)). -/
def State.SameTiming (s s' : State) : Prop :=
  List.Forall₂ Inputs.SameTiming s.script s'.script ∧
  s.pipe.map (fun slot => slot.v) = s'.pipe.map (fun slot => slot.v)

/-- A response some request has (30_encoding.md R48). -/
def IsResponse (r : Response) : Prop := ∃ i, r = respond i

/-- The invariant of the timed interface (R182, R183, R186): the delay line has LATENCY slots, and what stands in a valid
slot or was delivered is the response of a request, never unspecified data. -/
def State.Inv (s : State) : Prop :=
  s.pipe.length = Config.latency ∧
  (∀ slot ∈ s.pipe, slot.v = true → IsResponse slot.rsp) ∧
  (∀ r ∈ s.delivered, IsResponse r)

/-- The order of non-NaN binary64 values, by their place on the extended real line (40_numerics.md R78, R107). -/
def LeF64 (x y : F64) : Prop :=
  isNaN x = false ∧ isNaN y = false ∧
  ((isInf x = true ∧ sgn x = true) ∨ (isInf y = true ∧ sgn y = false) ∨
    (isFinite x = true ∧ isFinite y = true ∧ val x ≤ val y))

/-- A latitude in the supported domain, [MIN_LAT, MAX_LAT] (00_scope.md §6). -/
def LatInDomain (v : F64) : Prop := isFinite v = true ∧ val minLat ≤ val v ∧ val v ≤ val maxLat

/-- A longitude in the supported domain, [MIN_LON, MAX_LON] (00_scope.md §6). -/
def LonInDomain (v : F64) : Prop := isFinite v = true ∧ val minLon ≤ val v ∧ val v ≤ val maxLon

/-- `norm_axis` by the other reading of the source's formula, `2^26 × ((value − MIN) / RANGE)` (41_grid_normalizer.md
R106). -/
def normAxisDivideFirst (v min range : F64) : U32 := f2u32 (fmul scale (fdiv (fsub v min) range))

/-- `p` is a finite pattern nearest to the real `x`: no finite pattern is nearer (40_numerics.md R71). -/
def Nearest (x : ℚ) (p : F64) : Prop :=
  isFinite p = true ∧ ∀ q, isFinite q = true → |x - val p| ≤ |x - val q|

end Sys2Proof.Machine
end

