-- ==== Sys2Proof/Certificates/Slice0/Obligations.lean ====
section
/-! DEFINITION. The statements for the provers. -/

open Sys2Proof Sys2Proof.Machine

/-! ## The step and the timed interface (70_reset_and_hazards.md) -/

/-- R181: an edge with `req_valid = 1` and `rst = 0` runs the request on the ports, on the state as it stands; the
model's step adds nothing around `exec`. The second clause says it of a request written as one word (R45), the third of
the model's `withFetchWord` (log 7, log 8). -/
def Obligations.StepRunsThePresentedRequest : Prop :=
  (∀ s : State, s.inp.reqValid = true → s.inp.rst = false →
    step s = exec (decodePorts s.inp.reqOp s.inp.reqA s.inp.reqB) s) ∧
  (∀ (s : State) (w : RequestWord), s.inp = requestCycle w → step s = exec (decodeWord w) s) ∧
  (∀ (s : State) (nbits w : Nat),
    step (s.withFetchWord nbits w) = exec (decodeWord (tableRequest nbits w)) (s.withFetchWord nbits w))

/-- R155, R170: no step faults and no step is refused, in any state. -/
def Obligations.EveryStepAnswersANextState : Prop := ∀ s : State, StepsSafely s

/-- R182, the edge with `rst = 0` and `req_valid = 0`: every slot moves one place on, slot 0 becomes invalid, and the
oldest slot, where valid, was delivered. The list of deliveries and when it grows (log 6, log 12), a slot
valid since power-up included (log 15), and the requester's idling past its script (log 4) are the model's. -/
def Obligations.IdleEdgeShiftsAnInvalidSlotIn : Prop :=
  ∀ s : State, s.inp.rst = false → s.inp.reqValid = false →
    ∃ t slot, step s = .next t ∧ slot.v = false ∧ t.pipe = (slot :: s.pipe).take s.pipe.length ∧
      t.delivered = s.delivered ++ ((s.pipe.getLast?.toList.filter fun x => x.v).map fun x => x.rsp) ∧
      t.script = (match s.upcoming with | [] => [Inputs.idle] | c :: later => c :: later)

/-- R185: at an edge with `rst = 1` every valid bit becomes 0 and no slot is added or lost; a response is visible after it
only where LATENCY is 0 and a new request is on the ports; nothing in flight stays outstanding; a request presented on that
edge makes no difference. That what was on the port in the cycle the edge ends is delivered, and nothing else, is the
model's DEDUCED reading of R180 and R182 (log 12), said of the model's own list of deliveries (log 6). That this
takes in what an unknown power-up valid bit put on the port before the first reset edge (R187) is its choice (log 15). -/
def Obligations.ResetEdgeDiscardsWhatIsInFlight : Prop :=
  ∀ s : State, s.inp.rst = true →
    (∃ t, step s = .next t ∧ t.pipe.length = s.pipe.length ∧ (∀ slot ∈ t.pipe, slot.v = false) ∧ t.outstanding = [] ∧
      (t.rspValid = true → s.pipe = [] ∧ t.presented.isSome = true) ∧
      t.delivered = s.delivered ++ (if s.rspValid then [s.rspPort] else [])) ∧
    (∀ (v : Bool) (op : OpCode) (a b : U64), step { s with inp := ⟨true, v, op, a, b⟩ } = step s)

/-- R181, R188(e): what the request wires carry while `req_valid = 0` has no effect. -/
def Obligations.RequestWiresWithoutValidHaveNoEffect : Prop :=
  ∀ (s : State) (rst : Bool) (op op' : OpCode) (a a' b b' : U64),
    step { s with inp := ⟨rst, false, op, a, b⟩ } = step { s with inp := ⟨rst, false, op', a', b'⟩ }

/-- R182: what an edge adds to the deliveries is what the response port carried in the cycle the edge ended, and nothing
where `rsp_valid = 0`. The list of deliveries is the model's own observation (log 6); that it also takes what is on the
port in a cycle with `rst = 1` is the model's DEDUCED reading (log 12), and that it takes what an unknown power-up valid bit
put there (R187) is its choice (log 15). -/
def Obligations.DeliveriesAreWhatThePortCarried : Prop :=
  ∀ s t : State, step s = .next t → t.delivered = s.delivered ++ (if s.rspValid then [s.rspPort] else [])

/-- R182: the response to a request accepted in a cycle is on the port exactly LATENCY cycles later, and `rsp_valid` is
1 there only for an accepted request; a reset at one of the LATENCY - 1 edges between discards it (R185). LATENCY is the
number of slots of the delay line (log 1); past its script the requester is idle, the model's choice (log 4). -/
def Obligations.ResponseIsOnThePortExactlyLatencyCyclesLater : Prop :=
  ∀ s : State, ∃ t, StepsTo s.pipe.length s t ∧
    (t.rspValid = true ↔
      s.presented.isSome = true ∧ ∀ c ∈ s.upcoming.take (s.pipe.length - 1), c.rst = false) ∧
    (∀ i, s.presented = some i → t.rspValid = true → t.rspPort = respond i)

/-- R182, R192: an edge without reset keeps the sequence of responses, those delivered and then those outstanding, and
adds the response of the request it accepts at its end. The list of deliveries is the model's own (log 6, log 12);
that a slot valid since power-up counts as a response is its choice (log 15). -/
def Obligations.EdgeWithoutResetKeepsTheResponseSequence : Prop :=
  ∀ s t : State, s.inp.rst = false → step s = .next t →
    t.delivered ++ t.outstanding = s.delivered ++ s.outstanding ++ (s.presented.toList.map respond)

/-- R192: for any LATENCY (the length of the delay line), any pattern of idle cycles and any resets in a script, the
responses delivered by the time the delay line has run out are those the rules give for the script. That a response on
the port in a cycle with `rst = 1` counts, a reset exactly LATENCY edges after its request's acceptance then discarding
nothing of it, is the model's DEDUCED reading of R180, R182 and R185 (log 12); the list of deliveries (log 6) and the
requester's idling past its script (log 4) are the model's choices. -/
def Obligations.DeliveredValuesDoNotDependOnTiming : Prop :=
  ∀ (s : State) (script : List Inputs), s.outstanding = [] →
    ∃ t, StepsTo (script.length + s.pipe.length) (s.scripted script) t ∧
      t.delivered = s.delivered ++ expectedResponses s.pipe.length script ∧ t.outstanding = []

/-- R191: n requests presented on consecutive cycles are answered in order, and after n + LATENCY edges all have been and
nothing is pending. The list of deliveries (log 6) and the requester's idling past its requests (log 4) are the model's
choices. -/
def Obligations.RequestsOnConsecutiveCyclesAreAnsweredInOrder : Prop :=
  ∀ (s : State) (requests : List Instr), s.outstanding = [] →
    ∃ t, StepsTo (requests.length + s.pipe.length) (s.presenting requests) t ∧
      t.delivered = s.delivered ++ requests.map respond ∧ t.outstanding = [] ∧ t.rspValid = false

/-- R183, R189(c): when a response is on the port does not depend on the operations, the operands or any data.
Past its script the requester is idle in both runs, the model's choice (log 4). -/
def Obligations.ResponseTimesDoNotDependOnOperands : Prop :=
  ∀ (k : Nat) (s s' t t' : State), s.SameTiming s' → StepsTo k s t → StepsTo k s' t' → t.rspValid = t'.rspValid

/-- R10: the response to a request depends on that request alone: from any two states of one LATENCY it enters the delay
line the same, or, with LATENCY = 0, is delivered the same. The list of deliveries is the model's own (log 6). -/
def Obligations.ResponseDependsOnTheRequestAlone : Prop :=
  ∀ (i : Instr) (s s' t t' : State), s.pipe.length = s'.pipe.length → exec i s = .next t → exec i s' = .next t' →
    t.pipe.head? = t'.pipe.head? ∧ (s.pipe = [] → t.delivered.getLast? = t'.delivered.getLast?)

/-- The invariant of the timed interface: the delay line keeps its LATENCY slots, and no unspecified data ever stands in a
valid slot or is delivered (R182, R186). The constant that stands for LATENCY (log 1) and the list of deliveries (log 6)
are the model's. -/
def Obligations.EveryStepKeepsTheInvariant : Prop :=
  ∀ s t : State, s.Inv → step s = .next t → t.Inv

/-- The invariant holds after reset: the delay line has LATENCY slots, none valid (R22, R186). The constant for LATENCY
(log 1) and the list of deliveries, empty at reset (log 6), are the model's. -/
def Obligations.ResetHasTheInvariant : Prop := State.reset.Inv

/-- R22, R186: after reset no response is pending: every valid bit is 0. The constant for LATENCY (log 1) and, where
LATENCY is 0, the idle input ports that make `rsp_valid` 0 (log 5) are the model's. -/
def Obligations.ResetLeavesNothingPending : Prop :=
  State.reset.pipe.length = Config.latency ∧ (∀ slot ∈ State.reset.pipe, slot.v = false) ∧
    State.reset.outstanding = [] ∧ State.reset.rspValid = false

/-- R187, R186: one edge with `rst = 1` after power-up, whatever the slots held, leaves every valid bit 0. That the whole
delay line is then that of `State.reset`, the unspecified data of R185(b) with it, is the MODEL's choice and no rule: it
holds because the model numbers that edge 0 in both (log 3) and applies its free values to the number (log 2). That
`rsp_valid` is 0 also where LATENCY is 0 rests on the model's idle requester after the edge (log 4, log 11). -/
def Obligations.OneResetEdgeAfterPowerUpSuffices : Prop :=
  ∃ t, step State.powerUp = .next t ∧ t.pipe = State.reset.pipe ∧ (∀ slot ∈ t.pipe, slot.v = false) ∧
    t.rspValid = false

/-! ## The eight operations: each completes, with its response and its frame

The frame is `Accepts` (Sys2Proof/Safety.lean). What it says of the delay line is R182. What it says of the fields that are
the MODEL's own is the model's choice: the count of edges (log 3), the script, idle past its end (log 4), and the list of
deliveries and when it grows (log 6, log 12). -/

/-- R102: NORM answers both indices, zero-extended, from every state, and does to the state what accepting a request
does and nothing else.
The frame's clauses on the model's own fields are its choice (log 3, 4, 6, 12, 15). -/
def Obligations.NormAnswersBothIndices : Prop :=
  ∀ (a b : U64) (s : State), ∃ r t, exec (.norm a b) s = .next t ∧ Accepts s r t ∧
    r.r0 = (f2u32 (fdiv (fmul scale (fsub a minLat)) latRange)).setWidth 64 ∧
    r.r1 = (f2u32 (fdiv (fmul scale (fsub b minLon)) lonRange)).setWidth 64

/-- R108, R109: DENORM answers the midpoints of the cells of its two 32-bit indices; the index plus one does not wrap
(R69), and the upper halves of the ports are ignored (R50).
The frame's clauses on the model's own fields are its choice (log 3, 4, 6, 12, 15). -/
def Obligations.DenormAnswersBothCellCentres : Prop :=
  ∀ (a b : U64) (s : State), ∃ r t, exec (.denorm a b) s = .next t ∧ Accepts s r t ∧
    r.r0 = fdiv (fadd (fadd minLat (fmul latRange (fdiv (u2f (a.toNat % 2 ^ 32)) scale)))
      (fadd minLat (fmul latRange (fdiv (u2f (a.toNat % 2 ^ 32 + 1)) scale)))) two ∧
    r.r1 = fdiv (fadd (fadd minLon (fmul lonRange (fdiv (u2f (b.toNat % 2 ^ 32)) scale)))
      (fadd minLon (fmul lonRange (fdiv (u2f (b.toNat % 2 ^ 32 + 1)) scale)))) two

/-- R120, R122: SPREAD answers bit i of `a` at bit 2i of `r0`, 0 at every odd position, and 0 on `r1`.
The frame's clauses on the model's own fields are its choice (log 3, 4, 6, 12, 15). -/
def Obligations.SpreadAnswersSpreadBits : Prop :=
  ∀ (a b : U64) (s : State), ∃ r t, exec (.spread a b) s = .next t ∧ Accepts s r t ∧
    (∀ i < 32, r.r0.getLsbD (2 * i) = a.getLsbD i ∧ r.r0.getLsbD (2 * i + 1) = false) ∧ r.r1 = 0#64

/-- R123, R124: INTERLEAVE answers bit i of `a` at bit 2i and bit i of `b` at bit 2i + 1, and 0 on `r1`.
The frame's clauses on the model's own fields are its choice (log 3, 4, 6, 12, 15). -/
def Obligations.InterleaveAnswersAlternatingBits : Prop :=
  ∀ (a b : U64) (s : State), ∃ r t, exec (.interleave a b) s = .next t ∧ Accepts s r t ∧
    (∀ i < 32, r.r0.getLsbD (2 * i) = a.getLsbD i ∧ r.r0.getLsbD (2 * i + 1) = b.getLsbD i) ∧ r.r1 = 0#64

/-- R125, R127: COMPACT answers bit 2i of `a` at bit i of `r0`, 0 above bit 31, and 0 on `r1`.
The frame's clauses on the model's own fields are its choice (log 3, 4, 6, 12, 15). -/
def Obligations.CompactAnswersEvenBits : Prop :=
  ∀ (a b : U64) (s : State), ∃ r t, exec (.compact a b) s = .next t ∧ Accepts s r t ∧
    (∀ i < 32, r.r0.getLsbD i = a.getLsbD (2 * i) ∧ r.r0.getLsbD (32 + i) = false) ∧ r.r1 = 0#64

/-- R128, R129: DEINTERLEAVE answers the even bits of `a` on `r0` and its odd bits on `r1`, 0 above bit 31 of each.
The frame's clauses on the model's own fields are its choice (log 3, 4, 6, 12, 15). -/
def Obligations.DeinterleaveAnswersEvenAndOddBits : Prop :=
  ∀ (a b : U64) (s : State), ∃ r t, exec (.deinterleave a b) s = .next t ∧ Accepts s r t ∧
    (∀ i < 32, r.r0.getLsbD i = a.getLsbD (2 * i) ∧ r.r0.getLsbD (32 + i) = false) ∧
    (∀ i < 32, r.r1.getLsbD i = a.getLsbD (2 * i + 1) ∧ r.r1.getLsbD (32 + i) = false)

/-- R140, R141: ENCODE answers the latitude index on the even bits and the longitude index on the odd bits of `r0`, all
32 bits of each, and 0 on `r1`.
The frame's clauses on the model's own fields are its choice (log 3, 4, 6, 12, 15). -/
def Obligations.EncodeAnswersTheInterleavedIndices : Prop :=
  ∀ (a b : U64) (s : State), ∃ r t, exec (.encode a b) s = .next t ∧ Accepts s r t ∧
    (∀ i < 32, r.r0.getLsbD (2 * i) = (normLat a).getLsbD i ∧ r.r0.getLsbD (2 * i + 1) = (normLon b).getLsbD i) ∧
    r.r1 = 0#64

/-- R140, R142, R144: DECODE answers the cell centres of the index on the even bits of the code (latitude) and of the
index on its odd bits (longitude); all 64 bits of the code count.
The frame's clauses on the model's own fields are its choice (log 3, 4, 6, 12, 15). -/
def Obligations.DecodeAnswersTheCellCentres : Prop :=
  ∀ (a b : U64) (s : State), ∃ r t lat lon, exec (.decode a b) s = .next t ∧ Accepts s r t ∧
    (∀ i < 32, lat.getLsbD i = a.getLsbD (2 * i) ∧ lon.getLsbD i = a.getLsbD (2 * i + 1)) ∧
    r.r0 = denormLat lat ∧ r.r1 = denormLon lon

/-! ## Requests and responses as words (30_encoding.md) -/

/-- R45, R47: decoding the request word of an instruction gives the instruction back, every operand at every value. -/
def Obligations.DecodingAnEncodedRequestGivesItBack : Prop := ∀ i : Instr, decodeWord (encode i) = i

/-- R45, R53: every 131-bit word is the request word of the instruction it decodes to, so no two words are one request. -/
def Obligations.EveryRequestWordIsEncodedByItsInstruction : Prop := ∀ w : RequestWord, encode (decodeWord w) = w

/-- R45, R47: eight request words, one for each operation, decode to the requests they stand for. -/
def Obligations.SampleRequestWordsDecode : Prop :=
  decodeWord 0x0402B71A9FBE76C8B4059219CE075F6FD#131 = .norm 0x402B71A9FBE76C8B#64 0x4059219CE075F6FD#64 ∧
  decodeWord 0x1FFFFFFFF02529AEDDEADBEEF031DF037#131 = .denorm 0xFFFFFFFF02529AED#64 0xDEADBEEF031DF037#64 ∧
  decodeWord 0x200000000000000020000000000000000#131 = .spread 2#64 0#64 ∧
  decodeWord 0x300000000033611E00000000001FFA2F0#131 = .interleave 0x33611E0#64 0x1FFA2F0#64 ∧
  decodeWord 0x4000E13A6EB445E7B0000000000000001#131 = .compact 0x000E13A6EB445E7B#64 1#64 ∧
  decodeWord 0x50007AFBE8909FE000000000000000000#131 = .deinterleave 0x0007AFBE8909FE00#64 0#64 ∧
  decodeWord 0x640568000000000004069000000000000#131 = .encode 0x4056800000000000#64 0x4069000000000000#64 ∧
  decodeWord 0x7FFFFFFFFFFFFFFFF0000000000000000#131 = .decode 0xFFFFFFFFFFFFFFFF#64 0#64

/-- R48, R50: the operand wires an operation ignores make no difference to its response. -/
def Obligations.IgnoredOperandWiresMakeNoDifference : Prop :=
  ∀ a a' b b' c : U64, a.setWidth 32 = a'.setWidth 32 → b.setWidth 32 = b'.setWidth 32 →
    respond (.denorm a b) = respond (.denorm a' b') ∧ respond (.interleave a b) = respond (.interleave a' b') ∧
    respond (.spread a b) = respond (.spread a' c) ∧ respond (.compact a b) = respond (.compact a c) ∧
    respond (.deinterleave a b) = respond (.deinterleave a c) ∧ respond (.decode a b) = respond (.decode a c)

/-- R51: a 32-bit result has wires 63:32 at 0, and an unused result port is 0 on all wires. -/
def Obligations.UnusedResultWiresAreZero : Prop :=
  ∀ a b : U64,
    (respond (.norm a b)).r0.toNat < 2 ^ 32 ∧ (respond (.norm a b)).r1.toNat < 2 ^ 32 ∧
    (respond (.compact a b)).r0.toNat < 2 ^ 32 ∧ (respond (.deinterleave a b)).r0.toNat < 2 ^ 32 ∧
    (respond (.deinterleave a b)).r1.toNat < 2 ^ 32 ∧ (respond (.spread a b)).r1 = 0#64 ∧
    (respond (.interleave a b)).r1 = 0#64 ∧ (respond (.compact a b)).r1 = 0#64 ∧ (respond (.encode a b)).r1 = 0#64

/-! ## The bit interleaver (42_bit_interleaver.md) -/

/-- R120: `spread` moves bit i to bit 2i and puts 0 in every odd position. -/
def Obligations.SpreadMovesBitsToEvenPositions : Prop :=
  ∀ (v : U32) (i : Nat), i < 32 → (spread v).getLsbD (2 * i) = v.getLsbD i ∧ (spread v).getLsbD (2 * i + 1) = false

/-- R121: the network of OR, shift and AND stages computes exactly `spread`. -/
def Obligations.SpreadNetworkComputesSpread : Prop := ∀ v : U32, spreadNetwork v = spread v

/-- R125: `compact` moves bit 2i to bit i and discards the odd positions. -/
def Obligations.CompactMovesEvenBitsDown : Prop :=
  ∀ (c : U64) (i : Nat), i < 32 → (compact c).getLsbD i = c.getLsbD (2 * i)

/-- R126: the network of OR, shift and AND stages computes exactly `compact`. -/
def Obligations.CompactNetworkComputesCompact : Prop := ∀ c : U64, compactNetwork c = compact c

/-- R130: interleaving and de-interleaving are mutually inverse bijections, and `compact` is the inverse of `spread`. -/
def Obligations.InterleavingIsABijection : Prop :=
  (∀ x y : U32, compact (interleave x y) = x ∧ compact (interleave x y >>> 1) = y) ∧
  (∀ v : U32, compact (spread v) = v) ∧
  (∀ c : U64, spread (compact c) = c &&& 0x5555555555555555#64) ∧
  (∀ c : U64, interleave (deinterleave c).1 (deinterleave c).2 = c) ∧
  (∀ x y : U32, deinterleave (interleave x y) = (x, y))

/-- R131: two indices below 2^26 interleave to a code below 2^52; conversely bit 26 + k of x or y lands on bit 52 + 2k or
53 + 2k. -/
def Obligations.CodesOfSmallIndicesHaveZeroUpperBits : Prop :=
  (∀ x y : U32, x.toNat < 2 ^ 26 → y.toNat < 2 ^ 26 → (interleave x y).toNat < 2 ^ 52) ∧
  (∀ (x y : U32) (k : Nat), k < 6 → (interleave x y).getLsbD (52 + 2 * k) = x.getLsbD (26 + k) ∧
    (interleave x y).getLsbD (53 + 2 * k) = y.getLsbD (26 + k))

/-! ## binary64 (40_numerics.md) -/

/-- R71: `round64` returns, with the sign it is given, a finite pattern nearest to the magnitude unless the magnitude is
2^1024 − 2^970 or more, when it returns the infinity; where another finite value is as near, the returned significand is
even. The magnitude is a rational, the model's DEDUCED reading of the reals of the rule (log 13). -/
def Obligations.Round64IsNearestTiesToEven : Prop :=
  ∀ (s : Bool) (m : ℚ), 0 < m →
    sgn (round64 s m) = s ∧
    (m < 2 ^ 1024 - 2 ^ 970 → Nearest (if s then -m else m) (round64 s m)) ∧
    (m < 2 ^ 1024 - 2 ^ 970 → ∀ q, isFinite q = true → val q ≠ val (round64 s m) →
      |(if s then -m else m) - val q| = |(if s then -m else m) - val (round64 s m)| →
      fracField (round64 s m) % 2 = 0) ∧
    (2 ^ 1024 - 2 ^ 970 ≤ m → round64 s m = infF64 s)

/-- R72 to R76: on finite operands (and a divisor that is not a zero) each of the four functions, where its result is
finite, returns a binary64 value nearest to the exact result. -/
def Obligations.FourFunctionsRoundTheExactResult : Prop :=
  ∀ x y : F64, isFinite x = true → isFinite y = true →
    (isFinite (fadd x y) = true → Nearest (val x + val y) (fadd x y)) ∧
    (isFinite (fsub x y) = true → Nearest (val x - val y) (fsub x y)) ∧
    (isFinite (fmul x y) = true → Nearest (val x * val y) (fmul x y)) ∧
    (val y ≠ 0 → isFinite (fdiv x y) = true → Nearest (val x / val y) (fdiv x y))

/-- R74: subtraction is addition of the negated operand; a NaN gives the NaN; a finite value less itself is +0. -/
def Obligations.SubtractionOfItselfIsPlusZero : Prop :=
  (∀ x y : F64, fsub x y = fadd x (negF64 y)) ∧ (∀ x y : F64, isNaN y = true → fsub x y = nanF64) ∧
  (∀ x : F64, isFinite x = true → fsub x x = 0x0000000000000000#64)

/-- R77: the conversion of an integer up to 2^32 is exact, and +0 for 0. -/
def Obligations.IntegerConversionIsExact : Prop :=
  u2f 0 = 0x0000000000000000#64 ∧ ∀ n : Nat, n ≤ 2 ^ 32 → isFinite (u2f n) = true ∧ val (u2f n) = n

/-- R78: the table of the conversion to `u32`, row by row, and its monotonicity. -/
def Obligations.ConversionToU32TruncatesAndSaturates : Prop :=
  (∀ x : F64, isNaN x = true → f2u32 x = 0x00000000#32) ∧
  (∀ x : F64, x = 0xFFF0000000000000#64 ∨ (isFinite x = true ∧ val x ≤ -1) → f2u32 x = 0x00000000#32) ∧
  (∀ x : F64, isFinite x = true → -1 < val x → val x ≤ 0 → f2u32 x = 0x00000000#32) ∧
  (∀ x : F64, isFinite x = true → 0 < val x → val x < 2 ^ 32 → ((f2u32 x).toNat : Int) = ⌊val x⌋) ∧
  (∀ x : F64, x = 0x7FF0000000000000#64 ∨ (isFinite x = true ∧ 2 ^ 32 ≤ val x) → f2u32 x = 0xFFFFFFFF#32) ∧
  (∀ x y : F64, LeF64 x y → (f2u32 x).toNat ≤ (f2u32 y).toNat)

/-- R82(a), (b), (c): scaling by 2^26, dividing an integer up to 2^32 by 2^26 and halving are exact within the bounds the
rule gives, and the product overflows to the infinity of its sign beyond them. -/
def Obligations.ScalingByPowersOfTwoIsExact : Prop :=
  (∀ t : F64, isFinite t = true → |val t| < 2 ^ 998 →
    isFinite (fmul scale t) = true ∧ val (fmul scale t) = 2 ^ 26 * val t) ∧
  (∀ t : F64, isFinite t = true → 2 ^ 998 ≤ |val t| → fmul scale t = infF64 (sgn t)) ∧
  (∀ n : Nat, n ≤ 2 ^ 32 → isFinite (fdiv (u2f n) scale) = true ∧ val (fdiv (u2f n) scale) = (n : ℚ) / 2 ^ 26) ∧
  (∀ s : F64, isFinite s = true → val s = 0 ∨ 1 / 2 ^ 1021 ≤ |val s| →
    isFinite (fdiv s two) = true ∧ val (fdiv s two) = val s / 2)

/-- R15, R16, R17: the patterns of the constants, the decimals they are nearest to (R56 converts a decimal), their exact
values, and the ranges as the exact differences of their ends. -/
def Obligations.ConstantsHaveTheirPatternsAndValues : Prop :=
  (minLat = 0xC0554345B1A57F00#64 ∧ maxLat = 0x40554345B1A57F00#64 ∧ minLon = 0xC066800000000000#64 ∧
    maxLon = 0x4066800000000000#64 ∧ latRange = 0x40654345B1A57F00#64 ∧ lonRange = 0x4076800000000000#64 ∧
    scale = 0x4190000000000000#64 ∧ two = 0x4000000000000000#64) ∧
  (decimalF64 true 8505112878 (-8) = minLat ∧ decimalF64 false 8505112878 (-8) = maxLat ∧
    decimalF64 true 180 0 = minLon ∧ decimalF64 false 180 0 = maxLon ∧
    decimalF64 false 17010225756 (-8) = latRange) ∧
  (val maxLat = 23378676262271 / 274877906944 ∧ val minLat = -val maxLat ∧ val maxLon = 180 ∧ val minLon = -180 ∧
    val latRange = 2 * val maxLat ∧ val lonRange = 360 ∧ val scale = 2 ^ 26 ∧ val two = 2) ∧
  (fsub maxLat minLat = latRange ∧ val latRange = val maxLat - val minLat ∧ fsub maxLon minLon = lonRange ∧
    val lonRange = val maxLon - val minLon)

/-! ## The grid normalizer (41_grid_normalizer.md) -/

/-- R104 for one axis, `below` being the pattern just below the top and `second` the one below that: every value of the
domain has an index of at most 2^26; the bottom gives +0 at every step and index 0; the top gives the range, exactly 2^26
times it, exactly 2^26 and index 2^26; the pattern just below it gives the same difference and index; every other value of
the domain gives a difference below the range, a normalized value below 2^26 and an index below 2^26; and `second` gives the
index 2^26 − 1. -/
def InDomainIndices (inDomain : F64 → Prop) (min max range below second : F64) : Prop :=
  (∀ v, inDomain v → (normAxis v min range).toNat ≤ 2 ^ 26) ∧
  (fsub min min = 0#64 ∧ fmul scale 0#64 = 0#64 ∧ fdiv 0#64 range = 0#64 ∧ normAxis min min range = 0#32) ∧
  (fsub max min = range ∧ val (fmul scale range) = 2 ^ 26 * val range ∧ fdiv (fmul scale range) range = scale ∧
    normAxis max min range = 0x04000000#32) ∧
  (fsub below min = range ∧ normAxis below min range = 0x04000000#32) ∧
  (∀ v, inDomain v → v ≠ max → v ≠ below →
    val (fsub v min) < val range ∧ val (fdiv (fmul scale (fsub v min)) range) < 2 ^ 26 ∧
    (normAxis v min range).toNat ≤ 2 ^ 26 - 1) ∧
  normAxis second min range = 0x03FFFFFF#32

/-- R104: the indices of the supported domain, on both axes. -/
def Obligations.InDomainIndicesAreAtMostTwoToThe26 : Prop :=
  InDomainIndices LatInDomain minLat maxLat latRange 0x40554345B1A57EFF#64 0x40554345B1A57EFE#64 ∧
  InDomainIndices LonInDomain minLon maxLon lonRange 0x40667FFFFFFFFFFF#64 0x40667FFFFFFFFFFE#64

/-- R106: the other reading of the source's formula, dividing before multiplying, gives the same index for every value. -/
def Obligations.BothReadingsOfTheForwardFormulaAgree : Prop :=
  ∀ v : F64, normAxisDivideFirst v minLat latRange = normLat v ∧ normAxisDivideFirst v minLon lonRange = normLon v

/-- R107: the index does not decrease as the coordinate increases, over all non-NaN values, in the domain and outside
it. -/
def Obligations.IndexIsMonotoneInTheCoordinate : Prop :=
  ∀ v w : F64, LeF64 v w → (normLat v).toNat ≤ (normLat w).toNat ∧ (normLon v).toNat ≤ (normLon w).toNat

/-- R79, R105: a NaN coordinate gives index 0, −∞ gives 0 and +∞ gives 0xFFFFFFFF, on each axis. -/
def Obligations.SpecialCoordinatesHaveFixedIndices : Prop :=
  (∀ v : F64, isNaN v = true → normLat v = 0x00000000#32 ∧ normLon v = 0x00000000#32) ∧
  normLat 0xFFF0000000000000#64 = 0x00000000#32 ∧ normLon 0xFFF0000000000000#64 = 0x00000000#32 ∧
  normLat 0x7FF0000000000000#64 = 0xFFFFFFFF#32 ∧ normLon 0x7FF0000000000000#64 = 0xFFFFFFFF#32

/-- R80(a): a subnormal coordinate, or a zero of either sign, gives the difference and the index that +0 gives. -/
def Obligations.SubnormalCoordinatesActAsZero : Prop :=
  ∀ v : F64, classify v = .subnormal ∨ classify v = .zero →
    fsub v minLat = fsub 0#64 minLat ∧ fsub v minLon = fsub 0#64 minLon ∧
    normLat v = normLat 0#64 ∧ normLon v = normLon 0#64

/-- R112(c): the decoded longitude is exact. -/
def Obligations.DecodedLongitudeIsExact : Prop :=
  ∀ i : U32, val (denormLon i) = -180 + 360 * (2 * (i.toNat : ℚ) + 1) / 2 ^ 27

/-- R112(a): the decoded coordinates are finite, of magnitude below 2^16 and never a subnormal, for every index. -/
def Obligations.DecodedCoordinatesAreFinite : Prop :=
  ∀ i : U32, isFinite (denormLat i) = true ∧ isFinite (denormLon i) = true ∧
    |val (denormLat i)| < 2 ^ 16 ∧ |val (denormLon i)| < 2 ^ 16 ∧
    classify (denormLat i) ≠ .subnormal ∧ classify (denormLon i) ≠ .subnormal

/-- R79, R112: no NaN and no infinity reaches an output port of DENORM or DECODE. -/
def Obligations.NoNaNReachesAnOutput : Prop :=
  ∀ a b : U64, isFinite (respond (.denorm a b)).r0 = true ∧ isFinite (respond (.denorm a b)).r1 = true ∧
    isFinite (respond (.decode a b)).r0 = true ∧ isFinite (respond (.decode a b)).r1 = true

/-- R112(e): a larger index decodes to a larger coordinate, on each axis. -/
def Obligations.DecodedCoordinatesIncreaseWithTheIndex : Prop :=
  ∀ i j : U32, i.toNat < j.toNat → val (denormLat i) < val (denormLat j) ∧ val (denormLon i) < val (denormLon j)

/-- R112(d): the decoded latitude is within 2^-37 degrees of the exact centre of its cell. The rule says "near"; the bound
is the model's, read from the four roundings of R108. -/
def Obligations.DecodedLatitudeIsNearTheCellCentre : Prop :=
  ∀ i : U32, |val (denormLat i) - (val minLat + val latRange * (2 * (i.toNat : ℚ) + 1) / 2 ^ 27)| ≤ 1 / 2 ^ 37

/-! ## The compositions (43_encode_decode.md) -/

/-- R143: ENCODE is NORM and then INTERLEAVE, DECODE is DEINTERLEAVE and then DENORM, bit for bit. -/
def Obligations.CompositionsAreTheUnitOperations : Prop :=
  ∀ a b : U64,
    (respond (.encode a b)).r0 =
      (respond (.interleave (respond (.norm a b)).r0 (respond (.norm a b)).r1)).r0 ∧
    respond (.decode a b) =
      respond (.denorm (respond (.deinterleave a b)).r0 (respond (.deinterleave a b)).r1)

/-- R145: the code of a coordinate whose two indices are below 2^26 has bits 52 to 63 zero, and that is every coordinate
of the domain but for the top two patterns of each axis. -/
def Obligations.InDomainCodesHaveZeroUpperBits : Prop :=
  (∀ a b : F64, (normLat a).toNat < 2 ^ 26 → (normLon b).toNat < 2 ^ 26 → (encodeCode a b).toNat < 2 ^ 52) ∧
  (∀ a b : F64, LatInDomain a → LonInDomain b → a ≠ maxLat → a ≠ 0x40554345B1A57EFF#64 → b ≠ maxLon →
    b ≠ 0x40667FFFFFFFFFFF#64 → (encodeCode a b).toNat < 2 ^ 52) ∧
  (∀ a b : F64, a = maxLat ∨ a = 0x40554345B1A57EFF#64 → (encodeCode a b).getLsbD 52 = true) ∧
  (∀ a b : F64, b = maxLon ∨ b = 0x40667FFFFFFFFFFF#64 → (encodeCode a b).getLsbD 53 = true)

/-- R146: encoding a decoded code gives the code back, for every 64-bit code, in the domain or not. -/
def Obligations.EncodingADecodedCodeGivesItBack : Prop :=
  ∀ c : U64, encodeCode (decodeCode c).1 (decodeCode c).2 = c

/-- R146: for every coordinate of the domain, the decoded code of it is less than one cell away on each axis. -/
def Obligations.RoundTripStaysWithinOneCell : Prop :=
  ∀ a b : F64, LatInDomain a → LonInDomain b →
    |val (decodeCode (encodeCode a b)).1 - val a| < val latRange / 2 ^ 26 ∧
    |val (decodeCode (encodeCode a b)).2 - val b| < val lonRange / 2 ^ 26
end

