-- ==== Sys2Proof/Laws/Bits.lean ====
section
/-! SUPPORT. The bits of `spread` and `compact`, by induction over their definitions. -/

namespace Sys2Proof.Machine

/-- A single bit moved to place `k` of a word. -/
theorem getLsbD_ofBool_shiftLeft {w k j : Nat} (b : Bool) (hk : k < w) :
    ((BitVec.ofBool b).setWidth w <<< k).getLsbD j = (decide (j = k) && b) := by
  simp only [BitVec.getLsbD_shiftLeft, BitVec.getLsbD_setWidth, BitVec.getLsbD_ofBool]
  by_cases h : j = k
  · subst h
    simp [hk]
    omega
  · by_cases h2 : j < k
    · simp [h, h2]
    · have : j - k ≠ 0 := by omega
      simp [h, this]

/-- The bits of `spreadLow`. -/
theorem spreadLow_getLsbD (v : U32) (n j : Nat) (hn : n ≤ 32) :
    (spreadLow v n).getLsbD j = (decide (j % 2 = 0) && decide (j / 2 < n) && v.getLsbD (j / 2)) := by
  induction n with
  | zero => simp [spreadLow]
  | succ n ih =>
    rw [spreadLow, BitVec.getLsbD_or, ih (by omega), getLsbD_ofBool_shiftLeft _ (by omega)]
    by_cases h : j = 2 * n
    · subst h
      simp
    · by_cases h2 : j % 2 = 0
      · have : (j / 2 < n) ↔ (j / 2 < n + 1) := by omega
        simp [h, h2, this]
      · simp [h, h2]

/-- The bits of `spread` (42_bit_interleaver.md R120). -/
theorem spread_getLsbD (v : U32) (j : Nat) :
    (spread v).getLsbD j = (decide (j % 2 = 0) && v.getLsbD (j / 2)) := by
  rw [spread, spreadLow_getLsbD v 32 j le_rfl]
  by_cases h : j / 2 < 32
  · simp [h]
  · simp [BitVec.getLsbD_of_ge v (j / 2) (by omega)]

/-- The bits of `compactLow`. -/
theorem compactLow_getLsbD (c : U64) (n j : Nat) (hn : n ≤ 32) :
    (compactLow c n).getLsbD j = (decide (j < n) && c.getLsbD (2 * j)) := by
  induction n with
  | zero => simp [compactLow]
  | succ n ih =>
    rw [compactLow, BitVec.getLsbD_or, ih (by omega), getLsbD_ofBool_shiftLeft _ (by omega)]
    by_cases h : j = n
    · subst h
      simp
    · have : (j < n) ↔ (j < n + 1) := by omega
      simp [h, this]

/-- The bits of `compact` (42_bit_interleaver.md R125). -/
theorem compact_getLsbD (c : U64) (j : Nat) :
    (compact c).getLsbD j = (decide (j < 32) && c.getLsbD (2 * j)) :=
  compactLow_getLsbD c 32 j le_rfl

end Sys2Proof.Machine
end

