-- ==== Sys2Proof/Laws/Numerics.lean ====
section
/-! SUPPORT. The small lemmas of binary64: powers of two, fields of a packed pattern, the binade of a magnitude, rounding
to the nearest integer, and what `round64` returns (40_numerics.md R70, R71). -/

namespace Sys2Proof.Machine

/-! ## Powers of two -/

/-- `pow2` is the power of two of the library. -/
theorem pow2_eq_zpow (e : Int) : pow2 e = (2 : ℚ) ^ e := by
  cases e with
  | ofNat n =>
    rw [pow2, Int.ofNat_eq_natCast, zpow_natCast]
    norm_num
  | negSucc n =>
    rw [zpow_negSucc, pow2, Rat.mkRat_eq_div]
    norm_num

theorem pow2_pos (e : Int) : 0 < pow2 e := by
  rw [pow2_eq_zpow]
  positivity

theorem pow2_ne_zero (e : Int) : pow2 e ≠ 0 := (pow2_pos e).ne'

theorem pow2_add (a b : Int) : pow2 (a + b) = pow2 a * pow2 b := by
  simp only [pow2_eq_zpow, zpow_add₀ (two_ne_zero : (2 : ℚ) ≠ 0)]

theorem pow2_natCast (n : ℕ) : pow2 (n : Int) = 2 ^ n := by rw [pow2_eq_zpow, zpow_natCast]

/-- A power of two times `pow2`. -/
theorem two_pow_mul_pow2 {n : ℕ} {e f : Int} (h : (n : Int) + e = f) : (2 : ℚ) ^ n * pow2 e = pow2 f := by
  rw [← pow2_natCast, ← pow2_add, h]

theorem pow2_le_pow2 {a b : Int} (h : a ≤ b) : pow2 a ≤ pow2 b := by
  simp only [pow2_eq_zpow]
  exact zpow_le_zpow_right₀ (by norm_num) h

theorem pow2_lt_pow2 {a b : Int} (h : a < b) : pow2 a < pow2 b := by
  simp only [pow2_eq_zpow]
  exact zpow_lt_zpow_right₀ (by norm_num) h

theorem pow2_le_iff {a b : Int} : pow2 a ≤ pow2 b ↔ a ≤ b :=
  ⟨fun h => by by_contra hc; exact absurd (pow2_lt_pow2 (not_le.1 hc)) (not_lt.2 h), pow2_le_pow2⟩

/-! ## Fields of a packed pattern -/

@[simp] theorem sgn_packF64 (s : Bool) (e : BitVec 11) (f : BitVec 52) : sgn (packF64 s e f) = s := by
  simp only [sgn, packF64, BitVec.getLsbD_append]
  simp

@[simp] theorem expField_packF64 (s : Bool) (e : BitVec 11) (f : BitVec 52) : expField (packF64 s e f) = e.toNat := by
  unfold expField packF64
  congr 1
  apply BitVec.eq_of_getLsbD_eq
  intro j hj
  simp only [BitVec.getLsbD_extractLsb', BitVec.getLsbD_append, hj]
  simp [hj]

@[simp] theorem fracField_packF64 (s : Bool) (e : BitVec 11) (f : BitVec 52) :
    fracField (packF64 s e f) = f.toNat := by
  unfold fracField packF64
  congr 1
  apply BitVec.eq_of_getLsbD_eq
  intro j hj
  simp only [BitVec.getLsbD_extractLsb', BitVec.getLsbD_append, hj]
  simp [hj]

/-- Every pattern is put together from its fields (R70). -/
theorem packF64_fields (p : F64) : packF64 (sgn p) (p.extractLsb' 52 11) (p.extractLsb' 0 52) = p := by
  apply BitVec.eq_of_getLsbD_eq
  intro j hj
  simp only [packF64, sgn, BitVec.getLsbD_append, BitVec.getLsbD_extractLsb', BitVec.getLsbD_ofBool]
  by_cases h1 : j < 52
  · simp [h1]
  · by_cases h2 : j - 52 < 11
    · simp [h1, h2, show 52 + (j - 52) = j by omega]
    · have : j = 63 := by omega
      subst this
      simp

theorem expField_lt (p : F64) : expField p < 2048 := (p.extractLsb' 52 11).isLt
theorem fracField_lt (p : F64) : fracField p < 2 ^ 52 := (p.extractLsb' 0 52).isLt

/-- A pattern is finite where its exponent field is not all ones (R70). -/
theorem isFinite_iff (p : F64) : isFinite p = true ↔ expField p ≠ 2047 := by
  unfold isFinite isNaN isInf classify
  by_cases h : expField p = 2047
  · by_cases h2 : fracField p = 0 <;> simp [h, h2]
  · by_cases h2 : expField p = 0
    · by_cases h3 : fracField p = 0 <;> simp [h2, h3]
    · simp [h, h2]

/-- The magnitude of a finite pattern with exponent field 0 (R70). -/
theorem magnitude_of_expField_zero {p : F64} (h : expField p = 0) : magnitude p = fracField p * pow2 (-1074) := by
  unfold magnitude classify
  by_cases hf : fracField p = 0 <;> simp [h, hf]

/-- The magnitude of a normal pattern (R70). -/
theorem magnitude_of_normal {p : F64} (h0 : expField p ≠ 0) (h1 : expField p ≠ 2047) :
    magnitude p = ((2 ^ 52 + fracField p : ℕ) : ℚ) * pow2 ((expField p : Int) - 1075) := by
  simp [magnitude, classify, h0, h1]

theorem magnitude_nonneg (p : F64) : 0 ≤ magnitude p := by
  have h1 : 0 ≤ (fracField p : ℚ) * pow2 (-1074) := mul_nonneg (Nat.cast_nonneg _) (pow2_pos _).le
  have h2 : 0 ≤ ((2 ^ 52 + fracField p : ℕ) : ℚ) * pow2 ((expField p : Int) - 1075) :=
    mul_nonneg (Nat.cast_nonneg _) (pow2_pos _).le
  unfold magnitude
  split <;> first | exact h1 | exact h2 | exact le_rfl

theorem abs_val (p : F64) : |val p| = magnitude p := by
  unfold val
  split <;> simp [abs_of_nonneg (magnitude_nonneg p)]

/-! ## The binade of a magnitude -/

/-- `floorLog2` is the binade: `2^E ≤ m < 2^(E+1)` (R71). -/
theorem floorLog2_spec {m : ℚ} (hm : 0 < m) : pow2 (floorLog2 m) ≤ m ∧ m < pow2 (floorLog2 m + 1) := by
  have hnum : 0 < m.num := Rat.num_pos.2 hm
  have hden : (0 : ℚ) < m.den := by exact_mod_cast m.den_pos
  have hn0 : m.num.natAbs ≠ 0 := by omega
  have hd0 : m.den ≠ 0 := m.den_pos.ne'
  have hcast : ((m.num.natAbs : ℕ) : ℚ) = (m.num : ℚ) := by
    have h : ((m.num.natAbs : ℕ) : Int) = m.num := Int.natAbs_of_nonneg hnum.le
    exact congrArg (Int.cast (R := ℚ)) h
  have hmd : m = (m.num.natAbs : ℚ) / m.den := by rw [hcast]; exact (Rat.num_div_den m).symm
  generalize hN : m.num.natAbs = N at *
  generalize hD : m.den = D at *
  have n1 : (2 : ℚ) ^ N.log2 ≤ N := by exact_mod_cast Nat.log2_self_le hn0
  have n2 : (N : ℚ) < 2 ^ (N.log2 + 1) := by exact_mod_cast Nat.lt_log2_self
  have d1 : (2 : ℚ) ^ D.log2 ≤ D := by exact_mod_cast Nat.log2_self_le hd0
  have d2 : (D : ℚ) < 2 ^ (D.log2 + 1) := by exact_mod_cast Nat.lt_log2_self
  have hlow : pow2 ((N.log2 : Int) - D.log2 - 1) ≤ m := by
    rw [hmd, le_div_iff₀ hden]
    calc pow2 ((N.log2 : Int) - D.log2 - 1) * D
        ≤ pow2 ((N.log2 : Int) - D.log2 - 1) * 2 ^ (D.log2 + 1) :=
          mul_le_mul_of_nonneg_left d2.le (pow2_pos _).le
      _ = 2 ^ N.log2 := by
          rw [← pow2_natCast, ← pow2_natCast, ← pow2_add]; congr 1; push_cast; ring
      _ ≤ N := n1
  have hhigh : m < pow2 ((N.log2 : Int) - D.log2 + 1) := by
    rw [hmd, div_lt_iff₀ hden]
    calc (N : ℚ) < 2 ^ (N.log2 + 1) := n2
      _ = pow2 ((N.log2 : Int) - D.log2 + 1) * 2 ^ D.log2 := by
          rw [← pow2_natCast, ← pow2_natCast, ← pow2_add]; congr 1; push_cast; ring
      _ ≤ pow2 ((N.log2 : Int) - D.log2 + 1) * D := mul_le_mul_of_nonneg_left d1 (pow2_pos _).le
  unfold floorLog2
  simp only [hN, hD]
  split
  · exact ⟨‹_›, hhigh⟩
  · refine ⟨hlow, ?_⟩
    rw [show (N.log2 : Int) - D.log2 - 1 + 1 = (N.log2 : Int) - D.log2 by ring]
    exact not_le.1 ‹_›

/-- The binade is at least the subnormal one. -/
theorem binade_ge (m : ℚ) : -1022 ≤ binade m := le_max_right _ _

/-- A magnitude is below the top of its binade. -/
theorem lt_pow2_binade {m : ℚ} (hm : 0 < m) : m < pow2 (binade m + 1) :=
  (floorLog2_spec hm).2.trans_le (pow2_le_pow2 (by unfold binade; omega))

/-- Unless it was clamped, the binade's bottom is at most the magnitude. -/
theorem pow2_binade_le {m : ℚ} (hm : 0 < m) (h : binade m ≠ -1022) : pow2 (binade m) ≤ m := by
  have : binade m = floorLog2 m := by unfold binade at *; omega
  rw [this]
  exact (floorLog2_spec hm).1

/-- In units of the last place a magnitude is below 2^53 (R71). -/
theorem units_lt {m : ℚ} (hm : 0 < m) : m / pow2 (binade m - 52) < 2 ^ 53 := by
  rw [div_lt_iff₀ (pow2_pos _), show (2 : ℚ) ^ 53 = pow2 53 from (pow2_natCast 53).symm, ← pow2_add]
  exact (lt_pow2_binade hm).trans_le (pow2_le_pow2 (by omega))

/-- In units of the last place a magnitude is at least 2^52, unless the binade was clamped (R71). -/
theorem le_units {m : ℚ} (hm : 0 < m) (h : binade m ≠ -1022) : 2 ^ 52 ≤ m / pow2 (binade m - 52) := by
  rw [le_div_iff₀ (pow2_pos _), show (2 : ℚ) ^ 52 = pow2 52 from (pow2_natCast 52).symm, ← pow2_add]
  exact (pow2_le_pow2 (by omega)).trans (pow2_binade_le hm h)

/-! ## Rounding to the nearest integer -/

/-- `nearestEven` is within half of its argument, and even where it is exactly half away (R71). -/
theorem nearestEven_spec {n : ℚ} (hn : 0 ≤ n) :
    |n - nearestEven n| ≤ 1 / 2 ∧ (|n - nearestEven n| = 1 / 2 → nearestEven n % 2 = 0) := by
  have hf : (0 : Int) ≤ n.floor := Rat.le_floor_iff.2 (by simpa using hn)
  have hk : ((n.floor.toNat : ℕ) : ℚ) = (n.floor : ℚ) := by
    have h : ((n.floor.toNat : ℕ) : Int) = n.floor := Int.toNat_of_nonneg hf
    exact congrArg (Int.cast (R := ℚ)) h
  have h1 : ((n.floor.toNat : ℕ) : ℚ) ≤ n := by rw [hk]; exact Rat.floor_le n
  have h2 : n < ((n.floor.toNat : ℕ) : ℚ) + 1 := by rw [hk]; exact_mod_cast Rat.lt_floor_add_one n
  unfold nearestEven
  generalize n.floor.toNat = k at *
  simp only
  split
  · rename_i hc
    have h3 : n - ((k + 1 : ℕ) : ℚ) ≤ 0 := by push_cast; linarith
    rw [abs_of_nonpos h3]
    push_cast
    rcases hc with hc | ⟨hc, ho⟩
    · exact ⟨by linarith, fun h => by linarith⟩
    · exact ⟨by linarith, fun _ => by omega⟩
  · rename_i hc
    rw [not_or, not_and_or, not_lt] at hc
    rw [abs_of_nonneg (by linarith)]
    refine ⟨hc.1, fun h => ?_⟩
    rcases hc.2 with hc | hc
    · exact absurd h hc
    · omega

/-- `nearestEven` does not decrease. -/
theorem nearestEven_mono {a b : ℚ} (ha : 0 ≤ a) (hab : a ≤ b) : nearestEven a ≤ nearestEven b := by
  obtain ⟨a1, a2⟩ := nearestEven_spec ha
  obtain ⟨b1, b2⟩ := nearestEven_spec (ha.trans hab)
  by_contra hc
  have hlt : ((nearestEven b : ℕ) : ℚ) + 1 ≤ nearestEven a := by exact_mod_cast not_le.1 hc
  rw [abs_le] at a1 b1
  have e1 : a - nearestEven a = -(1 / 2) := by linarith
  have e2 : b - nearestEven b = 1 / 2 := by linarith
  have hab' : a = b := by linarith
  subst hab'
  omega

/-- `nearestEven` of an integer is that integer. -/
theorem nearestEven_natCast (k : ℕ) : nearestEven (k : ℚ) = k := by
  obtain ⟨h, -⟩ := nearestEven_spec (n := (k : ℚ)) (by positivity)
  rw [abs_le] at h
  have h1 : ((nearestEven (k : ℚ) : ℕ) : ℚ) < (k : ℚ) + 1 := by linarith
  have h2 : (k : ℚ) < (nearestEven (k : ℚ) : ℚ) + 1 := by linarith
  have h3 : nearestEven (k : ℚ) < k + 1 := by exact_mod_cast h1
  have h4 : k < nearestEven (k : ℚ) + 1 := by exact_mod_cast h2
  omega

/-- A number below 2^53 rounds to at most 2^53. -/
theorem nearestEven_le_two_pow {n : ℚ} (hn : 0 ≤ n) (h : n ≤ 2 ^ 53) : nearestEven n ≤ 2 ^ 53 := by
  have := nearestEven_mono hn h
  rwa [show (2 : ℚ) ^ 53 = ((2 ^ 53 : ℕ) : ℚ) by norm_num, nearestEven_natCast] at this

/-! ## What `packRounded` and `round64` return -/

/-- What `packRounded` returns where nothing overflows: a finite pattern of that sign whose magnitude is `k` units of the
binade (R71). -/
theorem packRounded_spec {s : Bool} {E : Int} {k : Nat} (hE : -1022 ≤ E) (hk : k ≤ 2 ^ 53)
    (hs : k < 2 ^ 52 → E = -1022) (ho : k = 2 ^ 53 → E + 1 ≤ 1023) (hE2 : E ≤ 1023) :
    isFinite (packRounded s E k) = true ∧ sgn (packRounded s E k) = s ∧
      magnitude (packRounded s E k) = k * pow2 (E - 52) := by
  have key : ∀ (E : Int) (k : Nat), -1022 ≤ E → E ≤ 1023 → k < 2 ^ 53 → 2 ^ 52 ≤ k →
      isFinite (packF64 s (BitVec.ofNat 11 (E + 1023).toNat) (BitVec.ofNat 52 (k - 2 ^ 52))) = true ∧
      magnitude (packF64 s (BitVec.ofNat 11 (E + 1023).toNat) (BitVec.ofNat 52 (k - 2 ^ 52))) = k * pow2 (E - 52) := by
    intro E k h1 h2 h3 h4
    have he : (BitVec.ofNat 11 (E + 1023).toNat).toNat = (E + 1023).toNat := by
      rw [BitVec.toNat_ofNat]; exact Nat.mod_eq_of_lt (by omega)
    have hf : (BitVec.ofNat 52 (k - 2 ^ 52)).toNat = k - 2 ^ 52 := by
      rw [BitVec.toNat_ofNat]; exact Nat.mod_eq_of_lt (by omega)
    refine ⟨by rw [isFinite_iff, expField_packF64, he]; omega, ?_⟩
    rw [magnitude_of_normal (by rw [expField_packF64, he]; omega) (by rw [expField_packF64, he]; omega),
      expField_packF64, fracField_packF64, he, hf, show 2 ^ 52 + (k - 2 ^ 52) = k by omega,
      show (((E + 1023).toNat : ℕ) : Int) - 1075 = E - 52 by omega]
  unfold packRounded
  by_cases h53 : k = 2 ^ 53
  · have := key (E + 1) (2 ^ 52) (by omega) (ho h53) (by norm_num) le_rfl
    simp only [h53, if_true, show ¬ (E + 1 > 1023) by have := ho h53; omega, lt_irrefl, if_false]
    refine ⟨this.1, sgn_packF64 _ _ _, ?_⟩
    rw [this.2, show E + 1 - 52 = 1 + (E - 52) by ring, pow2_add, show pow2 1 = 2 by rw [pow2_eq_zpow]; norm_num]
    push_cast
    ring
  · simp only [h53, if_false, show ¬ (E > 1023) by omega]
    by_cases h52 : k < 2 ^ 52
    · have hf : (BitVec.ofNat 52 k).toNat = k := by
        rw [BitVec.toNat_ofNat]; exact Nat.mod_eq_of_lt h52
      simp only [h52, if_true]
      refine ⟨by rw [isFinite_iff, expField_packF64]; decide, sgn_packF64 _ _ _, ?_⟩
      rw [magnitude_of_expField_zero (by rw [expField_packF64]; rfl), fracField_packF64, hf, hs h52]
      norm_num
    · have := key E k hE hE2 (by omega) (by omega)
      simp only [h52, if_false]
      exact ⟨this.1, sgn_packF64 _ _ _, this.2⟩

/-- A magnitude of at most 2^1023 lies in a binade of at most 1023. -/
theorem binade_le_of_lt {m : ℚ} (hm : 0 < m) {e : Int} (he : -1022 ≤ e) (h : m < pow2 (e + 1)) : binade m ≤ e := by
  by_contra hc
  have h1 := pow2_binade_le hm (by omega)
  have h2 : pow2 (e + 1) ≤ pow2 (binade m) := pow2_le_pow2 (by omega)
  linarith

/-- What `round64` returns for a magnitude at most 2^1023: a finite pattern of the sign, at most half a unit of the last
place of the binade away (R71). -/
theorem round64_spec {s : Bool} {m : ℚ} (hm : 0 < m) (h : m ≤ pow2 1023) :
    isFinite (round64 s m) = true ∧ sgn (round64 s m) = s ∧
      magnitude (round64 s m) = nearestEven (m / pow2 (binade m - 52)) * pow2 (binade m - 52) ∧
      |m - magnitude (round64 s m)| ≤ pow2 (binade m - 53) := by
  set q := pow2 (binade m - 52) with hq
  have hq0 : 0 < q := pow2_pos _
  have hn0 : 0 ≤ m / q := by positivity
  have hE : binade m ≤ 1023 := binade_le_of_lt hm (by norm_num) (h.trans_lt (pow2_lt_pow2 (by norm_num)))
  have hk : nearestEven (m / q) ≤ 2 ^ 53 := nearestEven_le_two_pow hn0 (units_lt hm).le
  have hs : nearestEven (m / q) < 2 ^ 52 → binade m = -1022 := by
    intro hlt
    by_contra hc
    have := nearestEven_mono (by positivity : (0 : ℚ) ≤ 2 ^ 52) (le_units hm hc)
    rw [show (2 : ℚ) ^ 52 = ((2 ^ 52 : ℕ) : ℚ) by norm_num, nearestEven_natCast, ← hq] at this
    omega
  have ho : nearestEven (m / q) = 2 ^ 53 → binade m + 1 ≤ 1023 := by
    intro h53
    by_contra hc
    have hE' : binade m = 1023 := by omega
    have : m / q ≤ 2 ^ 52 := by
      rw [div_le_iff₀ hq0, hq, hE', show (2 : ℚ) ^ 52 = pow2 52 from (pow2_natCast 52).symm, ← pow2_add]
      exact h
    have := nearestEven_mono hn0 this
    rw [show (2 : ℚ) ^ 52 = ((2 ^ 52 : ℕ) : ℚ) by norm_num, nearestEven_natCast] at this
    omega
  obtain ⟨r1, r2, r3⟩ := packRounded_spec (s := s) (binade_ge m) hk hs ho hE
  refine ⟨r1, r2, r3, ?_⟩
  rw [show magnitude (round64 s m) = nearestEven (m / q) * q from r3]
  have hd := (nearestEven_spec hn0).1
  have : m - nearestEven (m / q) * q = (m / q - nearestEven (m / q)) * q := by
    field_simp
  rw [this, abs_mul, abs_of_pos hq0, show binade m - 53 = (binade m - 52) + (-1) by ring, pow2_add, ← hq,
    show pow2 (-1) = 1 / 2 by rw [pow2_eq_zpow]; norm_num, mul_comm q]
  exact mul_le_mul_of_nonneg_right hd hq0.le

/-- The binade does not decrease. -/
theorem binade_mono {m n : ℚ} (hm : 0 < m) (h : m ≤ n) : binade m ≤ binade n := by
  by_contra hc
  have h1 := pow2_binade_le hm (by have := binade_ge n; omega)
  have h2 := lt_pow2_binade (hm.trans_le h)
  have h3 : pow2 (binade n + 1) ≤ pow2 (binade m) := pow2_le_pow2 (by omega)
  linarith

/-- Rounding does not decrease (R107 rests on it). -/
theorem round64_mono {s s' : Bool} {m n : ℚ} (hm : 0 < m) (h : m ≤ n) (hn : n ≤ pow2 1023) :
    magnitude (round64 s m) ≤ magnitude (round64 s' n) := by
  have hn0 := hm.trans_le h
  rw [(round64_spec hm (h.trans hn)).2.2.1, (round64_spec hn0 hn).2.2.1]
  have hq := pow2_pos (binade m - 52)
  rcases (binade_mono hm h).eq_or_lt with he | hl
  · rw [← he]
    exact mul_le_mul_of_nonneg_right
      (Nat.cast_le.2 (nearestEven_mono (div_nonneg hm.le hq.le) (div_le_div_of_nonneg_right h hq.le))) hq.le
  · have h1 : ((nearestEven (m / pow2 (binade m - 52)) : ℕ) : ℚ) ≤ 2 ^ 53 := by
      have := Nat.cast_le (α := ℚ).2 (nearestEven_le_two_pow (div_nonneg hm.le hq.le) (units_lt hm).le)
      rwa [Nat.cast_pow, Nat.cast_ofNat] at this
    have h2 : (2 ^ 52 : ℚ) ≤ (nearestEven (n / pow2 (binade n - 52)) : ℚ) := by
      have hne : binade n ≠ -1022 := ((binade_ge m).trans_lt hl).ne'
      have := nearestEven_mono (pow_nonneg zero_le_two 52) (le_units hn0 hne)
      rw [show (2 : ℚ) ^ 52 = ((2 ^ 52 : ℕ) : ℚ) by rw [Nat.cast_pow, Nat.cast_ofNat], nearestEven_natCast] at this
      rw [show (2 : ℚ) ^ 52 = ((2 ^ 52 : ℕ) : ℚ) by rw [Nat.cast_pow, Nat.cast_ofNat]]
      exact Nat.cast_le.2 this
    calc ((nearestEven (m / pow2 (binade m - 52)) : ℕ) : ℚ) * pow2 (binade m - 52)
        ≤ 2 ^ 53 * pow2 (binade m - 52) := mul_le_mul_of_nonneg_right h1 hq.le
      _ = pow2 (binade m + 1) := two_pow_mul_pow2 (by omega)
      _ ≤ pow2 (binade n) := pow2_le_pow2 (by omega)
      _ = 2 ^ 52 * pow2 (binade n - 52) := (two_pow_mul_pow2 (by omega)).symm
      _ ≤ _ := mul_le_mul_of_nonneg_right h2 (pow2_pos _).le

/-- A magnitude that binary64 can hold is returned as it is. -/
theorem round64_exact {s : Bool} {k : ℕ} {e : Int} (h0 : 0 < k) (hk : k < 2 ^ 53) (he : -1074 ≤ e)
    (h : (k : ℚ) * pow2 e ≤ pow2 1023) : magnitude (round64 s (k * pow2 e)) = k * pow2 e := by
  have hp := pow2_pos e
  have hm : (0 : ℚ) < k * pow2 e := mul_pos (Nat.cast_pos.2 h0) hp
  have hlt : (k : ℚ) * pow2 e < pow2 (max (e + 52) (-1022) + 1) := by
    have hk' : (k : ℚ) < 2 ^ 53 := by
      have := Nat.cast_lt (α := ℚ).2 hk
      rwa [Nat.cast_pow, Nat.cast_ofNat] at this
    calc (k : ℚ) * pow2 e < 2 ^ 53 * pow2 e := mul_lt_mul_of_pos_right hk' hp
      _ = pow2 (e + 53) := two_pow_mul_pow2 (by omega)
      _ ≤ _ := pow2_le_pow2 (by omega)
  have hb : binade (k * pow2 e) ≤ e + 52 := (binade_le_of_lt hm (by omega) hlt).trans (by omega)
  have hn : (k : ℚ) * pow2 e / pow2 (binade (k * pow2 e) - 52) =
      ((k * 2 ^ (e - (binade (k * pow2 e) - 52)).toNat : ℕ) : ℚ) := by
    rw [div_eq_iff (pow2_ne_zero _), Nat.cast_mul, Nat.cast_pow, Nat.cast_ofNat, mul_assoc,
      two_pow_mul_pow2 (f := e) (by omega)]
  rw [(round64_spec hm h).2.2.1, hn, nearestEven_natCast, ← hn, div_mul_cancel₀ _ (pow2_ne_zero _)]

/-- The value of a rounded magnitude, with its sign. -/
theorem val_round64 {s : Bool} {m : ℚ} (hm : 0 < m) (h : m ≤ pow2 1023) :
    val (round64 s m) = if s then -magnitude (round64 s m) else magnitude (round64 s m) := by
  rw [val, (round64_spec hm h).2.1]

/-! ## The functions on finite operands -/

theorem isFinite_not_nan {x : F64} (h : isFinite x = true) : isNaN x = false := by
  simp only [isFinite, Bool.and_eq_true, Bool.not_eq_true'] at h
  exact h.1

theorem isFinite_not_inf {x : F64} (h : isFinite x = true) : isInf x = false := by
  simp only [isFinite, Bool.and_eq_true, Bool.not_eq_true'] at h
  exact h.2

/-- A finite pattern is a zero exactly where its magnitude is 0 (R70). -/
theorem magnitude_eq_zero_iff {x : F64} (h : isFinite x = true) : magnitude x = 0 ↔ classify x = .zero := by
  have hne := (isFinite_iff x).1 h
  unfold magnitude classify
  by_cases h0 : expField x = 0
  · by_cases hf : fracField x = 0
    · simp [h0, hf]
    · simp only [h0, hf, if_false, if_true, show ¬ ((0 : ℕ) = 2047) by omega]
      simp [pow2_ne_zero, hf]
  · simp only [h0, hne, if_false]
    have : ((2 ^ 52 + fracField x : ℕ) : ℚ) ≠ 0 := by positivity
    simp only [mul_eq_zero, this, pow2_ne_zero, or_self, reduceCtorEq]

/-- Addition of finite operands (R73(c)). -/
theorem fadd_finite {x y : F64} (hx : isFinite x = true) (hy : isFinite y = true) :
    fadd x y = if val x + val y = 0 then zeroF64 (sgn x && sgn y)
      else round64 (decide (val x + val y < 0)) |val x + val y| := by
  simp [fadd, isFinite_not_nan hx, isFinite_not_nan hy, isFinite_not_inf hx, isFinite_not_inf hy]

/-- Multiplication of finite operands (R75(c)). -/
theorem fmul_finite {x y : F64} (hx : isFinite x = true) (hy : isFinite y = true) :
    fmul x y = if magnitude x * magnitude y = 0 then zeroF64 (sgn x != sgn y)
      else round64 (sgn x != sgn y) (magnitude x * magnitude y) := by
  simp [fmul, isFinite_not_nan hx, isFinite_not_nan hy, isFinite_not_inf hx, isFinite_not_inf hy]

/-- Division of finite operands by one that is not a zero (R76(d), (e)). -/
theorem fdiv_finite {x y : F64} (hx : isFinite x = true) (hy : isFinite y = true) (h : classify y ≠ .zero) :
    fdiv x y = if classify x = .zero then zeroF64 (sgn x != sgn y)
      else round64 (sgn x != sgn y) (magnitude x / magnitude y) := by
  simp [fdiv, isFinite_not_nan hx, isFinite_not_nan hy, isFinite_not_inf hx, isFinite_not_inf hy, h]

/-- Conversion of a finite operand (R78). -/
theorem f2u32_finite {x : F64} (hx : isFinite x = true) : f2u32 x = saturateU32 (truncate (val x)) := by
  simp [f2u32, isFinite_not_nan hx, isFinite_not_inf hx]

end Sys2Proof.Machine
end

