-- ==== Sys2Proof/Laws/PerInstr.lean ====
section
/-! SUPPORT. A family of statements about every instruction as syntax, one lemma per constructor of `Instr`. -/

namespace Sys2Proof.Laws

/-- The request word of an instruction carries the operation's code, its `a` and its `b` in their three fields
(30_encoding.md R45, R47). -/
def Fields.Statement (i : Instr) : Prop :=
  opField (encode i) = codeOfOp i.op ∧ aField (encode i) = i.a ∧ bField (encode i) = i.b

/-- The fields of a word put together as `op`, `a`, `b`. -/
theorem fields_of_append (c : OpCode) (a b : U64) :
    opField (c ++ a ++ b) = c ∧ aField (c ++ a ++ b) = a ∧ bField (c ++ a ++ b) = b := by
  refine ⟨?_, ?_, ?_⟩ <;> apply BitVec.eq_of_getLsbD_eq <;> intro j hj <;>
    simp only [opField, aField, bField, BitVec.getLsbD_extractLsb', BitVec.getLsbD_append, hj, decide_true, Bool.true_and]
  · simp [show ¬ 128 + j < 64 by omega, show ¬ 128 + j - 64 < 64 by omega, show 128 + j - 64 - 64 = j by omega]
  · simp [show ¬ 64 + j < 64 by omega, hj]
  · simp [hj]

theorem Fields.norm (a b : U64) : Fields.Statement (.norm a b) := fields_of_append _ a b
theorem Fields.denorm (a b : U64) : Fields.Statement (.denorm a b) := fields_of_append _ a b
theorem Fields.spread (a b : U64) : Fields.Statement (.spread a b) := fields_of_append _ a b
theorem Fields.interleave (a b : U64) : Fields.Statement (.interleave a b) := fields_of_append _ a b
theorem Fields.compact (a b : U64) : Fields.Statement (.compact a b) := fields_of_append _ a b
theorem Fields.deinterleave (a b : U64) : Fields.Statement (.deinterleave a b) := fields_of_append _ a b
theorem Fields.encode (a b : U64) : Fields.Statement (.encode a b) := fields_of_append _ a b
theorem Fields.decode (a b : U64) : Fields.Statement (.decode a b) := fields_of_append _ a b

end Sys2Proof.Laws
end

