-- ==== Sys2Proof/Laws/State.lean ====
section
/-! SUPPORT. One lemma per field of State per update, and the small lemmas of the delay line. -/

namespace Sys2Proof.Machine

variable (s : State) (pipe : List Slot) (out entering : Slot) (r : Response) (cycles : List Inputs)

/-! ## `edge` -/

@[simp] theorem State.edge_inp : (s.edge pipe out).inp = s.upcoming.headD Inputs.idle := rfl
@[simp] theorem State.edge_upcoming : (s.edge pipe out).upcoming = s.upcoming.tail := rfl
@[simp] theorem State.edge_pipe : (s.edge pipe out).pipe = pipe := rfl
@[simp] theorem State.edge_delivered : (s.edge pipe out).delivered = logDelivery s.delivered out := rfl
@[simp] theorem State.edge_edges : (s.edge pipe out).edges = s.edges + 1 := rfl

/-! ## `shiftIn` -/

@[simp] theorem State.shiftIn_inp : (s.shiftIn entering).inp = s.upcoming.headD Inputs.idle := rfl
@[simp] theorem State.shiftIn_upcoming : (s.shiftIn entering).upcoming = s.upcoming.tail := rfl
@[simp] theorem State.shiftIn_pipe : (s.shiftIn entering).pipe = (entering :: s.pipe).dropLast := rfl
@[simp] theorem State.shiftIn_delivered :
    (s.shiftIn entering).delivered = logDelivery s.delivered (s.outgoing entering) := rfl
@[simp] theorem State.shiftIn_edges : (s.shiftIn entering).edges = s.edges + 1 := rfl

/-! ## `accept` -/

@[simp] theorem State.accept_inp : (s.accept r).inp = s.upcoming.headD Inputs.idle := rfl
@[simp] theorem State.accept_upcoming : (s.accept r).upcoming = s.upcoming.tail := rfl
@[simp] theorem State.accept_pipe : (s.accept r).pipe = (⟨true, r⟩ :: s.pipe).dropLast := rfl
@[simp] theorem State.accept_delivered :
    (s.accept r).delivered = logDelivery s.delivered (s.outgoing ⟨true, r⟩) := rfl
@[simp] theorem State.accept_edges : (s.accept r).edges = s.edges + 1 := rfl

/-! ## `idleEdge` -/

@[simp] theorem State.bubble_v : s.bubble.v = false := rfl
@[simp] theorem State.idleEdge_inp : s.idleEdge.inp = s.upcoming.headD Inputs.idle := rfl
@[simp] theorem State.idleEdge_upcoming : s.idleEdge.upcoming = s.upcoming.tail := rfl
@[simp] theorem State.idleEdge_pipe : s.idleEdge.pipe = (s.bubble :: s.pipe).dropLast := rfl
@[simp] theorem State.idleEdge_delivered :
    s.idleEdge.delivered = logDelivery s.delivered (s.outgoing s.bubble) := rfl
@[simp] theorem State.idleEdge_edges : s.idleEdge.edges = s.edges + 1 := rfl

/-! ## `resetEdge` -/

@[simp] theorem State.resetEdge_inp : s.resetEdge.inp = s.upcoming.headD Inputs.idle := rfl
@[simp] theorem State.resetEdge_upcoming : s.resetEdge.upcoming = s.upcoming.tail := rfl
@[simp] theorem State.resetEdge_pipe : s.resetEdge.pipe = clearedPipe s.edges s.pipe.length := rfl
@[simp] theorem State.resetEdge_delivered :
    s.resetEdge.delivered = logDelivery s.delivered (s.outgoing s.bubble) := rfl
@[simp] theorem State.resetEdge_edges : s.resetEdge.edges = s.edges + 1 := rfl

/-! ## `scripted` and `withFetchWord` -/

@[simp] theorem State.scripted_inp : (s.scripted cycles).inp = cycles.headD Inputs.idle := rfl
@[simp] theorem State.scripted_upcoming : (s.scripted cycles).upcoming = cycles.tail := rfl
@[simp] theorem State.scripted_pipe : (s.scripted cycles).pipe = s.pipe := rfl
@[simp] theorem State.scripted_delivered : (s.scripted cycles).delivered = s.delivered := rfl
@[simp] theorem State.scripted_edges : (s.scripted cycles).edges = s.edges := rfl

@[simp] theorem State.withFetchWord_inp (nbits w : Nat) :
    (s.withFetchWord nbits w).inp = requestCycle (tableRequest nbits w) := rfl
@[simp] theorem State.withFetchWord_upcoming (nbits w : Nat) :
    (s.withFetchWord nbits w).upcoming = s.upcoming := rfl
@[simp] theorem State.withFetchWord_pipe (nbits w : Nat) : (s.withFetchWord nbits w).pipe = s.pipe := rfl
@[simp] theorem State.withFetchWord_delivered (nbits w : Nat) :
    (s.withFetchWord nbits w).delivered = s.delivered := rfl
@[simp] theorem State.withFetchWord_edges (nbits w : Nat) : (s.withFetchWord nbits w).edges = s.edges := rfl

/-! ## The delay line -/

@[simp] theorem logDelivery_valid (d : List Response) (r : Response) : logDelivery d ⟨true, r⟩ = d ++ [r] := rfl
@[simp] theorem logDelivery_invalid (d : List Response) (r : Response) : logDelivery d ⟨false, r⟩ = d := rfl

@[simp] theorem clearedPipe_length (edge n : Nat) : (clearedPipe edge n).length = n := by simp [clearedPipe]

/-- Every slot of a cleared delay line is invalid (70_reset_and_hazards.md R185(a)). -/
theorem clearedPipe_invalid {edge n : Nat} {slot : Slot} (h : slot ∈ clearedPipe edge n) : slot.v = false := by
  simp only [clearedPipe, List.mem_map] at h
  obtain ⟨_, -, rfl⟩ := h
  rfl

@[simp] theorem State.shiftIn_pipe_length : (s.shiftIn entering).pipe.length = s.pipe.length := by simp

/-- A slot of the delay line after an edge is the entering one or was there before. -/
theorem State.mem_shiftIn_pipe {slot : Slot} (h : slot ∈ (s.shiftIn entering).pipe) :
    slot = entering ∨ slot ∈ s.pipe := by
  simpa using List.dropLast_subset _ h

/-- The outgoing slot is the entering one (LATENCY = 0) or was in the delay line. -/
theorem State.outgoing_cases : (s.pipe = [] ∧ s.outgoing entering = entering) ∨ s.outgoing entering ∈ s.pipe := by
  rcases List.eq_nil_or_concat s.pipe with h | ⟨l, x, h⟩
  · exact .inl ⟨h, by simp [State.outgoing, h]⟩
  · exact .inr (by simp [State.outgoing, h])

/-- A response in the log after an edge was there before or is that of a valid outgoing slot. -/
theorem mem_logDelivery {d : List Response} {out : Slot} {r : Response} (h : r ∈ logDelivery d out) :
    r ∈ d ∨ (out.v = true ∧ r = out.rsp) := by
  unfold logDelivery at h
  split at h
  · rcases List.mem_append.1 h with h | h
    · exact .inl h
    · exact .inr ⟨‹_›, List.mem_singleton.1 h⟩
  · exact .inl h

end Sys2Proof.Machine
end

