-- ==== Sys2Proof/Laws/Step.lean ====
section
/-! SUPPORT. What `exec` and `step` can do, said once: later proofs cite these and do not unfold them. -/

namespace Sys2Proof.Machine

/-- The meaning of every operation is the edge that accepts its request, with the response of the untimed machine
(30_encoding.md R48, 70_reset_and_hazards.md R182). -/
theorem exec_eq_accept (i : Instr) (s : State) : exec i s = .next (s.accept (respond i)) := by
  cases i <;> rfl

theorem State.presented_some {s : State} (hv : s.inp.reqValid = true) (hr : s.inp.rst = false) :
    s.presented = some (decodePorts s.inp.reqOp s.inp.reqA s.inp.reqB) := by
  simp [State.presented, hv, hr]

theorem State.presented_none {s : State} (hv : s.inp.reqValid = false) : s.presented = none := by
  simp [State.presented, hv]

/-- The three kinds of rising edge: reset, accept, idle (R181, R182, R185). -/
theorem step_cases (s : State) :
    (s.inp.rst = true ∧ step s = .next s.resetEdge) ∨
    (∃ i, s.inp.rst = false ∧ s.presented = some i ∧ step s = .next (s.accept (respond i))) ∨
    (s.inp.rst = false ∧ s.presented = none ∧ step s = .next s.idleEdge) := by
  cases hr : s.inp.rst with
  | true => exact .inl ⟨rfl, by simp [step, hr]⟩
  | false =>
    cases hp : s.presented with
    | some i => exact .inr (.inl ⟨i, rfl, rfl, by simp [step, hr, hp, exec_eq_accept]⟩)
    | none => exact .inr (.inr ⟨rfl, rfl, by simp [step, hr, hp]⟩)

/-- The same, read from a step that answers `t`. -/
theorem step_next_cases {s t : State} (h : step s = .next t) :
    (s.inp.rst = true ∧ t = s.resetEdge) ∨
    (∃ i, s.inp.rst = false ∧ s.presented = some i ∧ t = s.accept (respond i)) ∨
    (s.inp.rst = false ∧ s.presented = none ∧ t = s.idleEdge) := by
  rcases step_cases s with ⟨hr, hs⟩ | ⟨i, hr, hp, hs⟩ | ⟨hr, hp, hs⟩ <;>
    rw [hs, Host.Outcome.next.injEq] at h <;> subst h
  · exact .inl ⟨hr, rfl⟩
  · exact .inr (.inl ⟨i, hr, hp, rfl⟩)
  · exact .inr (.inr ⟨hr, hp, rfl⟩)

end Sys2Proof.Machine
end

