-- ==== Sys2Proof/Tests/Slice0.lean ====
section
/-! SUPPORT. The model's own tests. Every expected value is the spec's: the request words, vectors and programs of
95_test_vectors.md, the worked values of 40_numerics.md §6 and the bit layouts of 30_encoding.md; then a witness for the
hypotheses of each statement that has any. `decide +kernel` leaves the evaluation of exact rationals to the kernel. -/

namespace Sys2Proof.Tests

open Sys2Proof Sys2Proof.Machine

/-! ## Decoding: one request word for each operation, as 95_test_vectors.md writes it (SPREAD: program P4; COMPACT: R45
and R47 with the operand of R127) -/

theorem test_decode_norm : decodeWord 0x0402B71A9FBE76C8B4059219CE075F6FD#131 =
    .norm 0x402B71A9FBE76C8B#64 0x4059219CE075F6FD#64 := by decide
theorem test_decode_denorm : decodeWord 0x1FFFFFFFF02529AEDDEADBEEF031DF037#131 =
    .denorm 0xFFFFFFFF02529AED#64 0xDEADBEEF031DF037#64 := by decide
theorem test_decode_spread : decodeWord 0x200000000000000020000000000000000#131 = .spread 2#64 0#64 := by decide
theorem test_decode_interleave : decodeWord 0x300000000033611E00000000001FFA2F0#131 =
    .interleave 0x33611E0#64 0x1FFA2F0#64 := by decide
theorem test_decode_compact : decodeWord 0x4000E13A6EB445E7B0000000000000001#131 =
    .compact 0x000E13A6EB445E7B#64 1#64 := by decide
theorem test_decode_deinterleave : decodeWord 0x50007AFBE8909FE000000000000000000#131 =
    .deinterleave 0x0007AFBE8909FE00#64 0#64 := by decide
theorem test_decode_encode : decodeWord 0x640568000000000004069000000000000#131 =
    .encode 0x4056800000000000#64 0x4069000000000000#64 := by decide
theorem test_decode_decode : decodeWord 0x7FFFFFFFFFFFFFFFF0000000000000000#131 =
    .decode 0xFFFFFFFFFFFFFFFF#64 0#64 := by decide
theorem test_decode_table_word : decodeTableWord 136 0x500000000000000000000000000000000 =
    some (.deinterleave 0#64 0#64) := by decide
theorem test_encode_word : encode (.decode 0x000E13A6EB445E7B#64 0#64) = 0x7000E13A6EB445E7B0000000000000000#131 := by
  decide

/-! ## Well-formedness: each check refuses an ill-formed term (R56) -/

theorem test_line_refuses_unknown_label :
    programWellFormed [] [⟨1, .decode, .result 0 .r0, none⟩, ⟨0, .spread, .hex32 2#32, none⟩] = false := by decide
theorem test_line_refuses_own_label_as_second_operand :
    programWellFormed [] [⟨0, .denorm, .hex32 1#32, some (.result 0 .r1)⟩] = false := by decide
theorem test_line_refuses_label_used_twice :
    programWellFormed [] [⟨0, .spread, .hex32 1#32, none⟩, ⟨0, .spread, .hex32 2#32, none⟩] = false := by decide
theorem test_program_p1_is_well_formed :
    programWellFormed [] [⟨0, .encode, .decimal false 137220 (-4), some (.decimal false 1005252 (-4))⟩,
      ⟨1, .decode, .result 0 .r0, none⟩] = true := by decide

/-! ## Responses (95_test_vectors.md §2) -/

theorem test_norm_reference : respond (.norm 0x402B71A9FBE76C8B#64 0x4059219CE075F6FD#64) =
    ⟨0x0000000002529AED#64, 0x00000000031DF037#64⟩ := by decide +kernel
theorem test_norm_nan_and_out_of_domain : respond (.norm 0x7FF8000000000000#64 0x4069000000000000#64) =
    ⟨0x0000000000000000#64, 0x000000000438E38E#64⟩ := by decide +kernel
theorem test_denorm_ignores_upper_halves : respond (.denorm 0xFFFFFFFF02529AED#64 0xDEADBEEF031DF037#64) =
    ⟨0x402B71AA12F4222C#64, 0x4059219CE0C00000#64⟩ := by decide +kernel
theorem test_denorm_bottom_and_top : respond (.denorm 0x00000000#64 0xFFFFFFFF#64) =
    ⟨0xC0554345AC54AD94#64, 0x40D652FFFFF4C000#64⟩ := by decide +kernel
theorem test_spread_word : respond (.spread 0xDEADBEEF#64 0#64) = ⟨0x5154445145545455#64, 0#64⟩ := by decide
theorem test_spread_ignores_upper_half : respond (.spread 0xFFFFFFFF00000001#64 7#64) = ⟨1#64, 0#64⟩ := by decide
theorem test_interleave_word : respond (.interleave 0x12345678#64 0x9ABCDEF0#64) = ⟨0x838C8FB0B3BCBF40#64, 0#64⟩ := by
  decide
theorem test_interleave_y_is_odd : respond (.interleave 0#64 0x80000000#64) = ⟨0x8000000000000000#64, 0#64⟩ := by decide
theorem test_compact_word : respond (.compact 0x0123456789ABCDEF#64 0#64) = ⟨0x11BB11BB#64, 0#64⟩ := by decide
theorem test_compact_top_even_bit : respond (.compact 0x4000000000000000#64 3#64) = ⟨0x80000000#64, 0#64⟩ := by decide
theorem test_deinterleave_word : respond (.deinterleave 0x838C8FB0B3BCBF40#64 0#64) =
    ⟨0x12345678#64, 0x9ABCDEF0#64⟩ := by decide
theorem test_deinterleave_bit_53 : respond (.deinterleave 0x0020000000000000#64 0#64) = ⟨0#64, 0x04000000#64⟩ := by
  decide
theorem test_encode_reference : respond (.encode 0xC040EF34D6A161E5#64 0x4062E6B295E9E1B1#64) =
    ⟨3252046221964352#64, 0#64⟩ := by decide +kernel
theorem test_encode_out_of_domain : respond (.encode 0x4056800000000000#64 0x4069000000000000#64) =
    ⟨0x00300BD1F84EC5A8#64, 0#64⟩ := by decide +kernel
theorem test_decode_reference : respond (.decode 0x000E13A6EB445E7B#64 0xFFFFFFFFFFFFFFFF#64) =
    ⟨0x402B71AA12F4222C#64, 0x4059219CE0C00000#64⟩ := by decide +kernel
theorem test_decode_all_bits : respond (.decode 0xFFFFFFFFFFFFFFFF#64 0#64) =
    ⟨0x40C518BF2637925F#64, 0x40D652FFFFF4C000#64⟩ := by decide +kernel

/-! ## Numerics (95_test_vectors.md §2.1) -/

theorem test_fsub_tie_to_even : fsub 0x40554345B1A57EFF#64 minLat = 0x40654345B1A57F00#64 := by decide +kernel
theorem test_fmul_overflows : fmul scale 0x7E50000000000000#64 = 0x7FF0000000000000#64 := by decide +kernel
theorem test_fdiv_rounds : fdiv 0x41F8B17AF1226C91#64 latRange = 0x418294D769D4F914#64 := by decide +kernel
theorem test_u2f_top : u2f 0x100000000 = 0x41F0000000000000#64 := by decide +kernel
theorem test_f2u32_truncates : f2u32 0x418FFFFFFFFFFFFE#64 = 0x03FFFFFF#32 := by decide +kernel

/-! ## The timed interface with LATENCY = 2 (70_reset_and_hazards.md §8) -/

/-- A state with two slots, both invalid, nothing delivered. -/
def idleTwo : State :=
  { inp := Inputs.idle, upcoming := [], pipe := [⟨false, ⟨0#64, 0#64⟩⟩, ⟨false, ⟨0#64, 0#64⟩⟩], delivered := [], edges := 1 }

/-- The state an outcome answers; `idleTwo` where it answers none, which no step does. -/
def after (o : Host.Outcome State Fault Refusal) : State :=
  match o with
  | .next t => t
  | _ => idleTwo

/-- C of the trace, `SPREAD 0x00000002`. -/
def spreadTwo : Instr := .spread 2#64 0#64

theorem test_edge_accepts_into_slot_0 :
    ((after (step (idleTwo.presenting [spreadTwo]))).pipe.map fun x => x.v) = [true, false] := by decide
theorem test_response_after_two_edges :
    (after (step (after (step (idleTwo.presenting [spreadTwo]))))).rspPort = ⟨4#64, 0#64⟩ := by decide

/-- Edge 5 of the trace: C in flight, a reset with a request beside it. -/
def atEdgeFive : State :=
  { idleTwo with
    inp := ⟨true, true, 2#3, 2#64, 0#64⟩
    pipe := [⟨true, ⟨4#64, 0#64⟩⟩, ⟨false, ⟨0#64, 0#64⟩⟩] }

theorem test_reset_edge_discards_and_ignores :
    ((after (step atEdgeFive)).pipe.map fun x => x.v) = [false, false] ∧ (after (step atEdgeFive)).delivered = [] := by
  decide
theorem test_latency_zero_answers_in_the_same_cycle :
    ({ idleTwo with pipe := [] }.presenting [spreadTwo]).rspPort = ⟨4#64, 0#64⟩ := by decide
theorem test_first_step_after_reset_runs_the_word :
    (match step (State.reset.withFetchWord 136 0x200000000000000020000000000000000) with
      | .next t => t.edges == 2
      | _ => false) = true := by decide

/-! ## The requester (95_test_vectors.md §3, program P1) -/

theorem test_program_p1 :
    answerLines [] [⟨0, .encode, .decimal false 137220 (-4), some (.decimal false 1005252 (-4))⟩,
      ⟨1, .decode, .result 0 .r0, none⟩] =
    some [(0, ⟨0x000E13A6EB445E7B#64, 0#64⟩), (1, ⟨0x402B71AA12F4222C#64, 0x4059219CE0C00000#64⟩)] := by decide +kernel
theorem test_alias_compact_even : Alias.compactEven.expand 5 [.hex32 4#32] = some ⟨5, .compact, .hex32 4#32, none⟩ := by
  decide
theorem test_decimal_max_lat : decimalF64 false 8505112878 (-8) = maxLat := by decide +kernel

/-! ## Witnesses: the hypotheses of each statement can be met together -/

/-- The request of program P4's line C on the ports of `idleTwo`. -/
def presentingTwo : State := { idleTwo with inp := requestCycle 0x200000000000000020000000000000000#131 }

theorem witness_StepRunsThePresentedRequest :
    presentingTwo.inp.reqValid = true ∧ presentingTwo.inp.rst = false ∧
      presentingTwo.inp = requestCycle 0x200000000000000020000000000000000#131 := by decide
theorem witness_IdleEdgeShiftsAnInvalidSlotIn : idleTwo.inp.rst = false ∧ idleTwo.inp.reqValid = false := by decide
theorem witness_ResetEdgeDiscardsWhatIsInFlight : State.powerUp.inp.rst = true := by decide
theorem witness_DeliveriesAreWhatThePortCarried : step presentingTwo = .next (after (step presentingTwo)) := rfl
theorem witness_EdgeWithoutResetKeepsTheResponseSequence :
    presentingTwo.inp.rst = false ∧ step presentingTwo = .next (after (step presentingTwo)) := ⟨rfl, rfl⟩
theorem witness_DeliveredValuesDoNotDependOnTiming : idleTwo.outstanding = [] := by decide
theorem witness_RequestsOnConsecutiveCyclesAreAnsweredInOrder : { idleTwo with pipe := [] }.outstanding = [] := by decide
theorem witness_ResponseIsOnThePort :
    presentingTwo.presented = some spreadTwo ∧
      (after (step (after (step presentingTwo)))).rspValid = true := by decide

/-- The same timing as `presentingTwo` with another operation and other operands. -/
def presentingOther : State := { idleTwo with inp := requestCycle 0x4000E13A6EB445E7B0000000000000001#131 }

theorem witness_ResponseTimesDoNotDependOnOperands :
    presentingTwo.SameTiming presentingOther ∧ StepsTo 1 presentingTwo (after (step presentingTwo)) ∧
      StepsTo 1 presentingOther (after (step presentingOther)) :=
  ⟨⟨.cons ⟨rfl, rfl⟩ .nil, rfl⟩, ⟨_, rfl, rfl⟩, ⟨_, rfl, rfl⟩⟩
theorem witness_ResponseDependsOnTheRequestAlone :
    idleTwo.pipe.length = presentingTwo.pipe.length ∧ exec spreadTwo idleTwo = .next (after (exec spreadTwo idleTwo)) ∧
      exec spreadTwo presentingTwo = .next (after (exec spreadTwo presentingTwo)) := ⟨rfl, rfl, rfl⟩
theorem witness_ResponseDependsOnTheRequestAlone_latency_zero : { idleTwo with pipe := [] }.pipe = [] := rfl

/-- A state with the invariant in which a response has been delivered. -/
def afterOneDelivery : State := { State.reset with delivered := [respond spreadTwo] }

theorem witness_EveryStepKeepsTheInvariant :
    afterOneDelivery.Inv ∧ step afterOneDelivery = .next (after (step afterOneDelivery)) := by
  refine ⟨⟨by simp [afterOneDelivery, State.reset, clearedPipe], fun slot h hv => ?_, fun r h => ?_⟩, rfl⟩
  · simp only [afterOneDelivery, State.reset, clearedPipe, List.mem_map] at h
    obtain ⟨k, -, rfl⟩ := h
    cases hv
  · exact ⟨spreadTwo, List.mem_singleton.1 h⟩

theorem witness_IgnoredOperandWiresMakeNoDifference :
    (0xFFFFFFFF02529AED#64 : U64).setWidth 32 = (0x02529AED#64 : U64).setWidth 32 ∧
      (0xDEADBEEF031DF037#64 : U64).setWidth 32 = (0x031DF037#64 : U64).setWidth 32 := by decide
theorem witness_bit_positions : 0 < 32 ∧ 31 < 32 ∧ 0 < 6 ∧ 5 < 6 := by decide
theorem witness_CodesOfSmallIndicesHaveZeroUpperBits : (0x03FFFFFF#32 : U32).toNat < 2 ^ 26 := by decide

theorem witness_Round64IsNearest_below_overflow :
    (0 : ℚ) < 2 ^ 53 + 1 ∧ (2 ^ 53 + 1 : ℚ) < 2 ^ 1024 - 2 ^ 970 := by decide +kernel
theorem witness_Round64IsNearest_tie : isFinite 0x4340000000000001#64 = true ∧
    val 0x4340000000000001#64 ≠ val (round64 false (2 ^ 53 + 1)) ∧
    |(2 ^ 53 + 1 : ℚ) - val 0x4340000000000001#64| = |(2 ^ 53 + 1 : ℚ) - val (round64 false (2 ^ 53 + 1))| := by
  decide +kernel
theorem witness_Round64IsNearest_overflow :
    (0 : ℚ) < 2 ^ 1024 - 2 ^ 970 ∧ round64 true (2 ^ 1024 - 2 ^ 970) = infF64 true := by decide +kernel
theorem witness_FourFunctionsRoundTheExactResult : isFinite minLat = true ∧ isFinite latRange = true ∧
    isFinite (fadd minLat latRange) = true ∧ isFinite (fsub minLat latRange) = true ∧
    isFinite (fmul minLat latRange) = true ∧ val latRange ≠ 0 ∧ isFinite (fdiv minLat latRange) = true := by
  decide +kernel
theorem witness_SubtractionOfItselfIsPlusZero : isNaN 0x7FF8000000000001#64 = true ∧ isFinite minLat = true := by decide
theorem witness_IntegerConversionIsExact : 2 ^ 32 ≤ 2 ^ 32 := by decide
theorem witness_ConversionToU32_nan : isNaN 0xFFFFFFFFFFFFFFFF#64 = true := by decide
theorem witness_ConversionToU32_bottom :
    isFinite 0xBFF0000000000000#64 = true ∧ val 0xBFF0000000000000#64 = -1 := by decide +kernel
theorem witness_ConversionToU32_truncated_to_zero : isFinite 0xBFEFFFFFFFFFFFFF#64 = true ∧
    -1 < val 0xBFEFFFFFFFFFFFFF#64 ∧ val 0x8000000000000000#64 = 0 := by decide +kernel
theorem witness_ConversionToU32_in_range : isFinite 0x41EFFFFFFFFFFFFF#64 = true ∧ 0 < val 0x0000000000000001#64 ∧
    0 < val 0x41EFFFFFFFFFFFFF#64 ∧ val 0x41EFFFFFFFFFFFFF#64 < 2 ^ 32 := by decide +kernel
theorem witness_ConversionToU32_top :
    isFinite 0x41F0000000000000#64 = true ∧ val 0x41F0000000000000#64 = 2 ^ 32 := by decide +kernel

/-- The lower order of two finite values. -/
theorem leF64_of_finite {x y : F64} (hx : isFinite x = true) (hy : isFinite y = true) (h : val x ≤ val y) :
    LeF64 x y := by
  simp only [isFinite, Bool.and_eq_true, Bool.not_eq_true'] at hx hy
  exact ⟨hx.1, hy.1, .inr (.inr ⟨by simp [isFinite, hx], by simp [isFinite, hy], h⟩)⟩

theorem witness_LeF64_finite : LeF64 minLat maxLat :=
  leF64_of_finite (by decide) (by decide) (by decide +kernel)
theorem witness_LeF64_from_minus_infinity : LeF64 0xFFF0000000000000#64 minLat :=
  ⟨by decide, by decide, .inl (by decide)⟩
theorem witness_LeF64_to_plus_infinity : LeF64 maxLat 0x7FF0000000000000#64 :=
  ⟨by decide, by decide, .inr (.inl (by decide))⟩
theorem witness_ScalingByPowersOfTwo_below : isFinite 0x7E4FFFFFFFFFFFFF#64 = true ∧
    |val 0x7E4FFFFFFFFFFFFF#64| < 2 ^ 998 := by decide +kernel
theorem witness_ScalingByPowersOfTwo_above : isFinite 0xFE50000000000000#64 = true ∧
    2 ^ 998 ≤ |val 0xFE50000000000000#64| := by decide +kernel
theorem witness_ScalingByPowersOfTwo_halving : isFinite 0x0020000000000000#64 = true ∧
    1 / 2 ^ 1021 ≤ |val 0x0020000000000000#64| ∧ val 0x8000000000000000#64 = 0 := by decide +kernel
theorem witness_LatInDomain_edges : LatInDomain minLat ∧ LatInDomain maxLat :=
  ⟨⟨by decide, by decide +kernel, by decide +kernel⟩, ⟨by decide, by decide +kernel, by decide +kernel⟩⟩
theorem witness_LonInDomain_edges : LonInDomain minLon ∧ LonInDomain maxLon :=
  ⟨⟨by decide, by decide +kernel, by decide +kernel⟩, ⟨by decide, by decide +kernel, by decide +kernel⟩⟩
theorem witness_LatInDomain_second_below_top : LatInDomain 0x40554345B1A57EFE#64 ∧
    (0x40554345B1A57EFE#64 : F64) ≠ maxLat ∧ (0x40554345B1A57EFE#64 : F64) ≠ 0x40554345B1A57EFF#64 :=
  ⟨⟨by decide, by decide +kernel, by decide +kernel⟩, by decide, by decide⟩
theorem witness_LonInDomain_second_below_top : LonInDomain 0x40667FFFFFFFFFFE#64 ∧
    (0x40667FFFFFFFFFFE#64 : F64) ≠ maxLon ∧ (0x40667FFFFFFFFFFE#64 : F64) ≠ 0x40667FFFFFFFFFFF#64 :=
  ⟨⟨by decide, by decide +kernel, by decide +kernel⟩, by decide, by decide⟩
theorem witness_SpecialCoordinates : isNaN 0xFFF8000000000001#64 = true := by decide
theorem witness_SubnormalCoordinatesActAsZero :
    classify 0x8000000000000001#64 = .subnormal ∧ classify 0x8000000000000000#64 = .zero := by decide
theorem witness_DecodedCoordinatesIncrease : (0xFFFFFFFE#32 : U32).toNat < (0xFFFFFFFF#32 : U32).toNat := by decide
theorem witness_InDomainCodes_small_indices : (normLat 0x40554345B1A57EFE#64).toNat < 2 ^ 26 ∧
    (normLon 0x40667FFFFFFFFFFE#64).toNat < 2 ^ 26 := by decide +kernel

end Sys2Proof.Tests
end

/-! # Proofs: accepting a request, the state after reset, the constants (10_state.md) -/

namespace Sys2Proof.Machine

/-! ## What accepting a request puts into the delay line and into the deliveries -/

/-- Where the delay line has a slot, the accepted request's response is the newest one after the edge (R182). -/
theorem State.accept_pipe_head? {s : State} (r : Response) (h : s.pipe ≠ []) :
    (s.accept r).pipe.head? = some ⟨true, r⟩ := by
  rw [State.accept_pipe, List.dropLast_cons_of_ne_nil h, List.head?_cons]

/-- With LATENCY = 0 an edge stores nothing (R182). -/
theorem State.accept_pipe_of_nil {s : State} (r : Response) (h : s.pipe = []) : (s.accept r).pipe = [] := by
  rw [State.accept_pipe, h, List.dropLast_singleton]

/-- With LATENCY = 0 the response of the request an edge accepts is delivered at that edge (R182). -/
theorem State.accept_delivered_of_nil {s : State} (r : Response) (h : s.pipe = []) :
    (s.accept r).delivered = s.delivered ++ [r] := by
  simp [State.outgoing, h]

/-- Two delay lines of one LATENCY are both without a slot or neither is. -/
theorem State.pipe_eq_nil_iff {s s' : State} (h : s.pipe.length = s'.pipe.length) : s.pipe = [] ↔ s'.pipe = [] := by
  rw [← List.length_eq_zero_iff, h, List.length_eq_zero_iff]

/-- The newest slot after accepting a request depends on its response and on LATENCY alone. -/
theorem State.accept_pipe_head?_congr {s s' : State} (r : Response) (h : s.pipe.length = s'.pipe.length) :
    (s.accept r).pipe.head? = (s'.accept r).pipe.head? := by
  by_cases hs : s.pipe = []
  · rw [State.accept_pipe_of_nil r hs, State.accept_pipe_of_nil r ((State.pipe_eq_nil_iff h).1 hs)]
  · rw [State.accept_pipe_head? r hs, State.accept_pipe_head? r (mt (State.pipe_eq_nil_iff h).2 hs)]

/-- Settles O12: every operation's meaning is the edge that accepts its request, so the two states differ only in what
stood in them before. -/
theorem responseDependsOnTheRequestAlone : Obligations.ResponseDependsOnTheRequestAlone := by
  intro i s s' t t' hlen ht ht'
  rw [exec_eq_accept, Host.Outcome.next.injEq] at ht ht'
  subst ht ht'
  refine ⟨State.accept_pipe_head?_congr _ hlen, fun hs => ?_⟩
  rw [State.accept_delivered_of_nil _ hs, State.accept_delivered_of_nil _ ((State.pipe_eq_nil_iff hlen).1 hs),
    List.getLast?_concat, List.getLast?_concat]

/-! ## A delay line without a valid slot -/

/-- With LATENCY at least 1 the oldest slot says whether there is a response on the port (R182). -/
theorem State.rspValid_of_getLast? {s : State} {slot : Slot} (h : s.pipe.getLast? = some slot) :
    s.rspValid = slot.v := by
  simp [State.rspValid, h]

/-- With LATENCY = 0 the inputs of the same cycle say whether there is a response on the port (R182). -/
theorem State.rspValid_of_nil {s : State} (h : s.pipe = []) : s.rspValid = (s.inp.reqValid && !s.inp.rst) := by
  simp [State.rspValid, h]

/-- Where no slot is valid and no request is presented, there is no response on the port (R182). -/
theorem State.rspValid_of_invalid {s : State} (h : ∀ slot ∈ s.pipe, slot.v = false) (hreq : s.inp.reqValid = false) :
    s.rspValid = false := by
  cases hlast : s.pipe.getLast? with
  | none => rw [State.rspValid_of_nil (List.getLast?_eq_none_iff.1 hlast), hreq, Bool.false_and]
  | some slot => rw [State.rspValid_of_getLast? hlast, h slot (List.mem_of_getLast? hlast)]

/-- Where no slot is valid, no accepted request waits for its response (R182). -/
theorem State.outstanding_of_invalid {s : State} (h : ∀ slot ∈ s.pipe, slot.v = false) : s.outstanding = [] := by
  have hnone : s.pipe.reverse.filter (fun slot => slot.v) = [] :=
    List.filter_eq_nil_iff.2 fun slot hslot => by simp [h slot (List.mem_reverse.1 hslot)]
  rw [State.outstanding, hnone, List.map_nil]

/-! ## The state after reset -/

@[simp] theorem State.reset_delivered : State.reset.delivered = [] := rfl

theorem State.reset_pipe_length : State.reset.pipe.length = Config.latency := clearedPipe_length 0 Config.latency

/-- After reset every valid bit is 0 (R22, R186). -/
theorem State.reset_pipe_invalid : ∀ slot ∈ State.reset.pipe, slot.v = false := fun _ h => clearedPipe_invalid h

/-- Settles O14: no slot is valid and nothing has been delivered, so only the length of the delay line is left to say. -/
theorem resetHasTheInvariant : Obligations.ResetHasTheInvariant := by
  refine ⟨State.reset_pipe_length, fun slot hslot hv => ?_, fun r hr => ?_⟩
  · rw [State.reset_pipe_invalid slot hslot] at hv
    contradiction
  · rw [State.reset_delivered] at hr
    contradiction

/-- Settles O15: what the delay line does not hold is neither outstanding nor, with idle inputs, on the port. -/
theorem resetLeavesNothingPending : Obligations.ResetLeavesNothingPending :=
  ⟨State.reset_pipe_length, State.reset_pipe_invalid, State.outstanding_of_invalid State.reset_pipe_invalid,
    State.rspValid_of_invalid State.reset_pipe_invalid rfl⟩

/-! ## Negation of a pattern (40_numerics.md §3) -/

@[simp] theorem sgn_negF64 (p : F64) : sgn (negF64 p) = !sgn p := by
  simp [sgn, negF64]

@[simp] theorem expField_negF64 (p : F64) : expField (negF64 p) = expField p := by
  rw [expField, negF64, BitVec.extractLsb'_xor]
  simp [expField]

@[simp] theorem fracField_negF64 (p : F64) : fracField (negF64 p) = fracField p := by
  rw [fracField, negF64, BitVec.extractLsb'_xor]
  simp [fracField]

@[simp] theorem classify_negF64 (p : F64) : classify (negF64 p) = classify p := by
  simp [classify]

@[simp] theorem magnitude_negF64 (p : F64) : magnitude (negF64 p) = magnitude p := by
  simp [magnitude]

/-- Inverting bit 63 negates the value (R70). -/
@[simp] theorem val_negF64 (p : F64) : val (negF64 p) = -val p := by
  cases h : sgn p <;> simp [val, h]

/-- A pattern is determined by its three fields (R70). -/
theorem eq_of_fields_eq {p q : F64} (hs : sgn p = sgn q) (he : expField p = expField q)
    (hf : fracField p = fracField q) : p = q := by
  rw [← packF64_fields p, ← packF64_fields q, hs, BitVec.eq_of_toNat_eq he, BitVec.eq_of_toNat_eq hf]

/-- The pattern with the other sign is the negated one (R70). -/
theorem packF64_true (e : BitVec 11) (f : BitVec 52) : packF64 true e f = negF64 (packF64 false e f) :=
  eq_of_fields_eq (by simp) (by simp) (by simp)

/-- Rounding treats the two signs alike: the magnitude is rounded and the sign is kept (R71). -/
theorem round64_true (m : ℚ) : round64 true m = negF64 (round64 false m) := by
  simp only [round64, packRounded, infF64, packF64_true, apply_ite negF64]

/-- The decimal with a minus sign is converted to the negated pattern (R56). -/
theorem decimalF64_true (digits : Nat) (exponent : Int) :
    decimalF64 true digits exponent = negF64 (decimalF64 false digits exponent) := by
  simp only [decimalF64, zeroF64, packF64_true, round64_true, apply_ite negF64]

/-! ## Rounding a magnitude whose binade and nearest integer of units are known (R71) -/

/-- An integer less than half away is the nearest one. -/
theorem nearestEven_eq {n : ℚ} {k : Nat} (hn : 0 ≤ n) (h : |n - k| < 1 / 2) : nearestEven n = k := by
  have hnear := (nearestEven_spec hn).1
  rw [abs_le] at hnear
  rw [abs_lt] at h
  have hlt : ((nearestEven n : ℕ) : ℚ) < k + 1 := by linarith
  have hgt : (k : ℚ) < nearestEven n + 1 := by linarith
  norm_cast at hlt hgt
  omega

/-- The binade of a magnitude that is not below the smallest normal one. -/
theorem binade_eq {m : ℚ} {E : Int} (hE : -1022 ≤ E) (hlo : pow2 E ≤ m) (hhi : m < pow2 (E + 1)) : binade m = E := by
  have hm : 0 < m := (pow2_pos E).trans_le hlo
  have hle : E ≤ binade m := by
    by_contra hc
    have hbelow : pow2 (binade m + 1) ≤ pow2 E := pow2_le_pow2 (by omega)
    exact absurd (lt_pow2_binade hm) (not_lt.2 (hbelow.trans hlo))
  exact le_antisymm (binade_le_of_lt hm hE hhi) hle

/-- A magnitude of the binade `E` less than half a unit away from `k` units is rounded to `k` units (R71). -/
theorem round64_eq_packRounded {s : Bool} {m : ℚ} {E : Int} {k : Nat} (hE : -1022 ≤ E) (hlo : 2 ^ E ≤ m)
    (hhi : m < 2 ^ (E + 1)) (hk : |m / 2 ^ (E - 52) - k| < 1 / 2) : round64 s m = packRounded s E k := by
  rw [← pow2_eq_zpow] at hlo hhi hk
  have hunits : 0 ≤ m / pow2 (E - 52) := div_nonneg ((pow2_pos E).le.trans hlo) (pow2_pos _).le
  rw [round64, binade_eq hE hlo hhi, nearestEven_eq hunits hk]

/-- `pow10` is the power of ten of the library. -/
theorem pow10_eq_zpow (e : Int) : pow10 e = (10 : ℚ) ^ e := by
  cases e with
  | ofNat n =>
    rw [pow10, Int.ofNat_eq_natCast, zpow_natCast]
    norm_num
  | negSucc n =>
    rw [zpow_negSucc, pow10, Rat.mkRat_eq_div]
    norm_num

/-! ## The constants: each pattern's exact value, and the decimal it is nearest to -/

/-- The value of a normal pattern of sign 0 from its two other fields (R70). -/
theorem val_of_normal {p : F64} {e f : Nat} (hfields : sgn p = false ∧ expField p = e ∧ fracField p = f)
    (hnormal : e ≠ 0 ∧ e ≠ 2047) : val p = (2 ^ 52 + f : ℕ) * 2 ^ ((e : Int) - 1075) := by
  obtain ⟨hs, rfl, rfl⟩ := hfields
  rw [val, hs, if_neg Bool.false_ne_true, magnitude_of_normal hnormal.1 hnormal.2, pow2_eq_zpow]

/-- The two ends of each axis differ in the sign bit only (R15). -/
theorem negF64_maxLat : negF64 maxLat = minLat := by decide
theorem negF64_maxLon : negF64 maxLon = minLon := by decide

theorem val_maxLat : val maxLat = 23378676262271 / 274877906944 := by
  rw [val_of_normal (e := 0x405) (f := 0x54345B1A57F00) (by decide) (by decide)]
  norm_num

theorem val_maxLon : val maxLon = 180 := by
  rw [val_of_normal (e := 0x406) (f := 0x6800000000000) (by decide) (by decide)]
  norm_num

theorem val_latRange : val latRange = 23378676262271 / 137438953472 := by
  rw [val_of_normal (e := 0x406) (f := 0x54345B1A57F00) (by decide) (by decide)]
  norm_num

theorem val_lonRange : val lonRange = 360 := by
  rw [val_of_normal (e := 0x407) (f := 0x6800000000000) (by decide) (by decide)]
  norm_num

theorem val_scale : val scale = 2 ^ 26 := by
  rw [val_of_normal (e := 0x419) (f := 0) (by decide) (by decide)]
  norm_num

theorem val_two : val two = 2 := by
  rw [val_of_normal (e := 0x400) (f := 0) (by decide) (by decide)]
  norm_num

theorem val_minLat : val minLat = -val maxLat := by rw [← negF64_maxLat, val_negF64]
theorem val_minLon : val minLon = -180 := by rw [← negF64_maxLon, val_negF64, val_maxLon]

theorem val_latRange_eq_two_mul : val latRange = 2 * val maxLat := by
  rw [val_latRange, val_maxLat]
  norm_num

/-- Each range is the exact difference of the ends of its axis (R16). -/
theorem val_latRange_eq_sub : val latRange = val maxLat - val minLat := by
  rw [val_latRange_eq_two_mul, val_minLat]
  ring

theorem val_lonRange_eq_sub : val lonRange = val maxLon - val minLon := by
  rw [val_lonRange, val_maxLon, val_minLon]
  norm_num

/-- 85.05112878 and the constant lie in the binade of 64, where the decimal is nearest to that significand (R15). -/
theorem decimalF64_maxLat : decimalF64 false 8505112878 (-8) = maxLat := by
  rw [decimalF64, if_neg (by decide), pow10_eq_zpow, round64_eq_packRounded (E := 6) (k := 0x154345B1A57F00)]
  · decide
  all_goals norm_num [abs_lt]

/-- 180 lies in the binade of 128 and is a whole number of its units (R15). -/
theorem decimalF64_maxLon : decimalF64 false 180 0 = maxLon := by
  rw [decimalF64, if_neg (by decide), pow10_eq_zpow, round64_eq_packRounded (E := 7) (k := 0x16800000000000)]
  · decide
  all_goals norm_num

/-- 170.10225756, twice the latitude's decimal, has the same significand one binade up (R16). -/
theorem decimalF64_latRange : decimalF64 false 17010225756 (-8) = latRange := by
  rw [decimalF64, if_neg (by decide), pow10_eq_zpow, round64_eq_packRounded (E := 7) (k := 0x154345B1A57F00)]
  · decide
  all_goals norm_num [abs_lt]

theorem decimalF64_minLat : decimalF64 true 8505112878 (-8) = minLat := by
  rw [decimalF64_true, decimalF64_maxLat, negF64_maxLat]

theorem decimalF64_minLon : decimalF64 true 180 0 = minLon := by
  rw [decimalF64_true, decimalF64_maxLon, negF64_maxLon]

/-- The range of the latitudes is computed without a rounding error (R16). -/
theorem fsub_maxLat_minLat : fsub maxLat minLat = latRange := by
  have hval : val maxLat + val (negF64 minLat) = 23378676262271 / 137438953472 := by
    rw [val_negF64, ← sub_eq_add_neg, ← val_latRange_eq_sub, val_latRange]
  rw [fsub, fadd_finite (by decide) (by decide), hval, if_neg (by norm_num),
    round64_eq_packRounded (E := 7) (k := 0x154345B1A57F00), decide_eq_false (by norm_num)]
  · decide
  all_goals norm_num

/-- The range of the longitudes is computed without a rounding error (R16). -/
theorem fsub_maxLon_minLon : fsub maxLon minLon = lonRange := by
  have hval : val maxLon + val (negF64 minLon) = 360 := by
    rw [val_negF64, ← sub_eq_add_neg, ← val_lonRange_eq_sub, val_lonRange]
  rw [fsub, fadd_finite (by decide) (by decide), hval, if_neg (by norm_num),
    round64_eq_packRounded (E := 8) (k := 0x16800000000000), decide_eq_false (by norm_num)]
  · decide
  all_goals norm_num

/-- Settles O42: the patterns are the definitions; the decimals, values and differences are the lemmas above. -/
theorem constantsHaveTheirPatternsAndValues : Obligations.ConstantsHaveTheirPatternsAndValues :=
  ⟨⟨rfl, rfl, rfl, rfl, rfl, rfl, rfl, rfl⟩,
    ⟨decimalF64_minLat, decimalF64_maxLat, decimalF64_minLon, decimalF64_maxLon, decimalF64_latRange⟩,
    ⟨val_maxLat, val_minLat, val_maxLon, val_minLon, val_latRange_eq_two_mul, val_lonRange, val_scale, val_two⟩,
    ⟨fsub_maxLat_minLat, val_latRange_eq_sub, fsub_maxLon_minLon, val_lonRange_eq_sub⟩⟩

end Sys2Proof.Machine

/-! # Proofs: requests and responses as words (30_encoding.md) -/

namespace Sys2Proof

/-! ## A request and its operation, operands and code -/

@[simp] theorem Op.instr_op (op : Op) (a b : U64) : (op.instr a b).op = op := by cases op <;> rfl
@[simp] theorem Op.instr_a (op : Op) (a b : U64) : (op.instr a b).a = a := by cases op <;> rfl
@[simp] theorem Op.instr_b (op : Op) (a b : U64) : (op.instr a b).b = b := by cases op <;> rfl

/-- A request is its operation with its two operands (R45). -/
@[simp] theorem Instr.op_instr (i : Instr) : i.op.instr i.a i.b = i := by cases i <;> rfl

/-- The two readings of the operation map agree: no two operations have one code (R47). -/
@[simp] theorem opOfCode_codeOfOp (op : Op) : opOfCode (codeOfOp op) = op := by cases op <;> rfl

/-- The two readings of the operation map agree: all eight codes are assigned (R47, R53). -/
@[simp] theorem codeOfOp_opOfCode : ∀ c : OpCode, codeOfOp (opOfCode c) = c := by decide

/-! ## The three fields of a request word -/

/-- The fields of an instruction's request word are its code and its operands (R45). -/
theorem fields_encode (i : Instr) : Laws.Fields.Statement i := Laws.fields_of_append _ i.a i.b

/-- Every request word is put together from its three fields (R45). -/
theorem fields_append (w : RequestWord) : opField w ++ aField w ++ bField w = w := by
  have hopa : opField w ++ aField w = w.extractLsb' 64 67 := BitVec.extractLsb'_append_extractLsb'_eq_extractLsb' rfl
  rw [hopa]
  exact (BitVec.extractLsb'_append_extractLsb'_eq_extractLsb' rfl).trans BitVec.extractLsb'_eq_self

/-! ## Decoding and encoding are inverse to each other -/

/-- Settles O25: the fields of the request word are the code and the operands, and the code names the operation. -/
theorem decodingAnEncodedRequestGivesItBack : Obligations.DecodingAnEncodedRequestGivesItBack := by
  intro i
  obtain ⟨hop, ha, hb⟩ := fields_encode i
  rw [decodeWord, decodePorts, hop, ha, hb, opOfCode_codeOfOp, Instr.op_instr]

/-- Settles O26: decoding keeps all three fields, and these are all bits of the word. -/
theorem everyRequestWordIsEncodedByItsInstruction : Obligations.EveryRequestWordIsEncodedByItsInstruction := by
  intro w
  rw [decodeWord, decodePorts, encode, Op.instr_op, Op.instr_a, Op.instr_b, codeOfOp_opOfCode, fields_append]

/-- A word that an instruction is encoded as decodes to that instruction (R45). -/
theorem decodeWord_of_encode_eq {i : Instr} {w : RequestWord} (h : encode i = w) : decodeWord w = i :=
  h ▸ decodingAnEncodedRequestGivesItBack i

/-- Settles O27: each word is what its request is encoded as. -/
theorem sampleRequestWordsDecode : Obligations.SampleRequestWordsDecode :=
  ⟨decodeWord_of_encode_eq rfl, decodeWord_of_encode_eq rfl, decodeWord_of_encode_eq rfl, decodeWord_of_encode_eq rfl,
    decodeWord_of_encode_eq rfl, decodeWord_of_encode_eq rfl, decodeWord_of_encode_eq rfl, decodeWord_of_encode_eq rfl⟩

end Sys2Proof

namespace Sys2Proof.Machine

/-! ## The response of each operation: which wires it reads and which it drives (R48 to R51) -/

section
variable (a b : U64)

@[simp] theorem respond_norm : respond (.norm a b) = ⟨resultIndex (normLat a), resultIndex (normLon b)⟩ := rfl
@[simp] theorem respond_denorm :
    respond (.denorm a b) = ⟨denormLat (operandIndex a), denormLon (operandIndex b)⟩ := rfl
@[simp] theorem respond_spread : respond (.spread a b) = ⟨spread (operandIndex a), 0#64⟩ := rfl
@[simp] theorem respond_interleave :
    respond (.interleave a b) = ⟨interleave (operandIndex a) (operandIndex b), 0#64⟩ := rfl
@[simp] theorem respond_compact : respond (.compact a b) = ⟨resultIndex (compact a), 0#64⟩ := rfl
@[simp] theorem respond_deinterleave :
    respond (.deinterleave a b) = ⟨resultIndex (compact a), resultIndex (compact (a >>> 1))⟩ := rfl
@[simp] theorem respond_encode : respond (.encode a b) = ⟨interleave (normLat a) (normLon b), 0#64⟩ := rfl
@[simp] theorem respond_decode :
    respond (.decode a b) = ⟨denormLat (compact a), denormLon (compact (a >>> 1))⟩ := rfl

end

/-- Settles O28: DENORM, INTERLEAVE and SPREAD read an operand through its low 32 wires only, and the four operations
with one operand do not read `b`. -/
theorem ignoredOperandWiresMakeNoDifference : Obligations.IgnoredOperandWiresMakeNoDifference := by
  intro a a' b b' c ha hb
  have hia : operandIndex a = operandIndex a' := ha
  have hib : operandIndex b = operandIndex b' := hb
  refine ⟨?denorm, ?interleave, ?spread, ?compact, ?deinterleave, ?decode⟩
  case denorm => rw [respond_denorm, respond_denorm, hia, hib]
  case interleave => rw [respond_interleave, respond_interleave, hia, hib]
  case spread => rw [respond_spread, respond_spread, hia]
  case compact => rw [respond_compact, respond_compact]
  case deinterleave => rw [respond_deinterleave, respond_deinterleave]
  case decode => rw [respond_decode, respond_decode]

/-- A zero-extended 32-bit result has wires 63:32 at 0 (R51). -/
theorem resultIndex_toNat_lt (i : U32) : (resultIndex i).toNat < 2 ^ 32 := by
  rw [resultIndex, BitVec.toNat_setWidth_of_le (by decide)]
  exact i.isLt

/-- Settles O29: each of the five 32-bit results is zero-extended, and the four unused ports are driven to 0. -/
theorem unusedResultWiresAreZero : Obligations.UnusedResultWiresAreZero := by
  intro a b
  rw [respond_norm, respond_compact, respond_deinterleave, respond_spread, respond_interleave, respond_encode]
  exact ⟨resultIndex_toNat_lt _, resultIndex_toNat_lt _, resultIndex_toNat_lt _, resultIndex_toNat_lt _,
    resultIndex_toNat_lt _, rfl, rfl, rfl, rfl⟩

end Sys2Proof.Machine

/-! # Proofs: rounding and the six functions of binary64 (40_numerics.md) -/

namespace Sys2Proof.Machine

/-! ## Finite patterns as whole numbers of units (R70) -/

/-- The magnitude of a finite pattern is its significand, of at most 53 bits, in units between the subnormal ones and
those of the highest binade. -/
theorem exists_magnitude_eq_units {p : F64} (h : isFinite p = true) :
    ∃ (k : ℕ) (e : ℤ), k < 2 ^ 53 ∧ (-1074 ≤ e ∧ e ≤ 971) ∧ magnitude p = k * pow2 e := by
  have hfrac := fracField_lt p
  have hexp := expField_lt p
  have hne := (isFinite_iff p).1 h
  by_cases h0 : expField p = 0
  · exact ⟨fracField p, -1074, by omega, by omega, magnitude_of_expField_zero h0⟩
  · exact ⟨2 ^ 52 + fracField p, expField p - 1075, by omega, by omega, magnitude_of_normal h0 hne⟩

/-- A value with a significand below 2^53 is below the 53rd power of two of its units. -/
theorem units_mul_pow2_lt {k : ℕ} (hk : k < 2 ^ 53) (e : ℤ) : (k : ℚ) * pow2 e < pow2 (e + 53) := by
  have hkq : (k : ℚ) < 2 ^ 53 := by exact_mod_cast hk
  calc (k : ℚ) * pow2 e < 2 ^ 53 * pow2 e := mul_lt_mul_of_pos_right hkq (pow2_pos e)
    _ = pow2 (e + 53) := two_pow_mul_pow2 (by omega)

/-- Seen from the binade `E`, a finite value is a whole number of its units or lies below it. -/
theorem val_eq_units_or_lt_binade {p : F64} (h : isFinite p = true) (E : ℤ) :
    (∃ z : ℤ, val p = z * pow2 (E - 52)) ∨ (-1022 < E ∧ val p < pow2 E) := by
  obtain ⟨k, e, hk, ⟨he, -⟩, hmag⟩ := exists_magnitude_eq_units h
  by_cases hE : E - 52 ≤ e
  · have hunits : magnitude p = ((k * 2 ^ (e - (E - 52)).toNat : ℤ) : ℚ) * pow2 (E - 52) := by
      push_cast
      rw [hmag, mul_assoc, two_pow_mul_pow2 (f := e) (by omega)]
    left
    cases hs : sgn p with
    | false => exact ⟨_, by rw [val, hs, if_neg Bool.false_ne_true, hunits]⟩
    | true => exact ⟨-_, by rw [val, hs, if_pos rfl, hunits, Int.cast_neg, neg_mul]⟩
  · right
    refine ⟨by omega, ?_⟩
    calc val p ≤ magnitude p := abs_val p ▸ le_abs_self _
      _ < pow2 (e + 53) := hmag ▸ units_mul_pow2_lt hk e
      _ ≤ pow2 E := pow2_le_pow2 (by omega)

/-! ## The nearest whole number of units (R71) -/

/-- No integer is nearer than `nearestEven`, and where another one is as near it is even. -/
theorem nearestEven_nearest {n : ℚ} (hn : 0 ≤ n) (z : ℤ) :
    |n - nearestEven n| ≤ |n - z| ∧
      (z ≠ nearestEven n → |n - z| = |n - nearestEven n| → nearestEven n % 2 = 0) := by
  obtain ⟨hhalf, heven⟩ := nearestEven_spec hn
  by_cases hz : z = nearestEven n
  · subst hz
    exact ⟨le_of_eq (by norm_cast), fun h => absurd rfl h⟩
  · have hapart : (1 : ℚ) ≤ |(z : ℚ) - nearestEven n| := by
      exact_mod_cast Int.one_le_abs (sub_ne_zero.2 hz)
    have htri : |(z : ℚ) - nearestEven n| ≤ |n - z| + |n - nearestEven n| := by
      rw [abs_sub_comm n z]
      exact abs_sub_le _ _ _
    exact ⟨by linarith, fun _ heq => heven (by linarith)⟩

/-- The number of units of its binade that `round64` rounds a magnitude to (R71). -/
def roundedUnits (m : ℚ) : ℕ := nearestEven (m / pow2 (binade m - 52))

theorem round64_eq (s : Bool) (m : ℚ) : round64 s m = packRounded s (binade m) (roundedUnits m) := rfl

theorem roundedUnits_le {m : ℚ} (hm : 0 < m) : roundedUnits m ≤ 2 ^ 53 :=
  nearestEven_le_two_pow (div_pos hm (pow2_pos _)).le (units_lt hm).le

/-! ## The overflow threshold (R71) -/

/-- The threshold lies half a unit below the top of the highest binade. -/
theorem overflow_threshold_eq : (2 : ℚ) ^ 1024 - 2 ^ 970 = (2 ^ 53 - 1 / 2) * pow2 971 := by
  have htop : (2 : ℚ) ^ 53 * pow2 971 = 2 ^ 1024 := (two_pow_mul_pow2 (by norm_num)).trans (pow2_natCast 1024)
  have hhalf : 2 * pow2 970 = pow2 971 := pow_one (2 : ℚ) ▸ two_pow_mul_pow2 (by norm_num)
  rw [sub_mul, htop, ← hhalf, one_div, inv_mul_cancel_left₀ two_ne_zero]
  exact congrArg _ (pow2_natCast 970).symm

/-- Below the threshold the binade is one that patterns have, and rounding up does not leave the highest one. -/
theorem binade_le_of_lt_overflow {m : ℚ} (hm : 0 < m) (h : m < 2 ^ 1024 - 2 ^ 970) :
    binade m ≤ 1023 ∧ (roundedUnits m = 2 ^ 53 → binade m + 1 ≤ 1023) := by
  rw [overflow_threshold_eq] at h
  have hE : binade m ≤ 1023 := by
    refine binade_le_of_lt hm (by norm_num) (h.trans_le ?_)
    calc (2 ^ 53 - 1 / 2) * pow2 971 ≤ 2 ^ 53 * pow2 971 := mul_le_mul_of_nonneg_right (by norm_num) (pow2_pos _).le
      _ = pow2 (1023 + 1) := two_pow_mul_pow2 (by norm_num)
  refine ⟨hE, fun hk => ?_⟩
  by_contra hc
  rw [roundedUnits, show binade m - 52 = 971 by omega] at hk
  have hunits : m / pow2 971 < 2 ^ 53 - 1 / 2 := (div_lt_iff₀ (pow2_pos _)).2 h
  have hnear := (nearestEven_spec (div_pos hm (pow2_pos 971)).le).1
  rw [hk, abs_le] at hnear
  norm_num at hnear hunits
  linarith

/-- The tie below 2^53 goes up, because 2^53 - 1 is odd (R71). -/
theorem nearestEven_below_two_pow_53 : nearestEven (2 ^ 53 - 1 / 2) = 2 ^ 53 := by decide +kernel

/-- From the threshold on, the magnitude lies above all binades or is rounded up out of the highest one. -/
theorem binade_of_overflow_le {m : ℚ} (hm : 0 < m) (h : 2 ^ 1024 - 2 ^ 970 ≤ m) :
    1023 < binade m ∨ (binade m = 1023 ∧ roundedUnits m = 2 ^ 53) := by
  rw [overflow_threshold_eq] at h
  by_cases hE : 1023 < binade m
  · exact .inl hE
  have h1023 : pow2 1023 ≤ m := by
    calc pow2 1023 = 2 ^ 52 * pow2 971 := (two_pow_mul_pow2 (by norm_num)).symm
      _ ≤ (2 ^ 53 - 1 / 2) * pow2 971 := mul_le_mul_of_nonneg_right (by norm_num) (pow2_pos _).le
      _ ≤ m := h
  have hbin : binade m = 1023 := binade_eq (by norm_num) h1023 ((lt_pow2_binade hm).trans_le (pow2_le_pow2 (by omega)))
  refine .inr ⟨hbin, le_antisymm (roundedUnits_le hm) ?_⟩
  rw [roundedUnits, hbin, ← nearestEven_below_two_pow_53]
  exact nearestEven_mono (by norm_num) ((le_div_iff₀ (pow2_pos _)).2 h)

/-! ## What `round64` returns below the threshold and from it on (R71) -/

@[simp] theorem sgn_packRounded (s : Bool) (E : ℤ) (k : ℕ) : sgn (packRounded s E k) = s := by
  unfold packRounded infF64
  dsimp only
  split_ifs <;> exact sgn_packF64 _ _ _

/-- The sign `round64` is given is that of its result, overflow included (R71). -/
@[simp] theorem sgn_round64 (s : Bool) (m : ℚ) : sgn (round64 s m) = s := sgn_packRounded _ _ _

/-- The significand's parity is that of the number of units: dropping the leading bit keeps it (R71). -/
theorem fracField_packRounded_parity {s : Bool} {E : ℤ} {k : ℕ} (hE : E ≤ 1023) (hk : k ≤ 2 ^ 53) :
    fracField (packRounded s E k) % 2 = k % 2 := by
  unfold packRounded infF64
  dsimp only
  split_ifs <;> simp only [fracField_packF64, BitVec.toNat_ofNat] <;> omega

/-- Fewer than 2^52 units are left only in the subnormal range (R71). -/
theorem binade_eq_of_roundedUnits_lt {m : ℚ} (hm : 0 < m) (h : roundedUnits m < 2 ^ 52) : binade m = -1022 := by
  by_contra hc
  have hge := nearestEven_mono (by positivity) (le_units hm hc)
  rw [show (2 : ℚ) ^ 52 = ((2 ^ 52 : ℕ) : ℚ) by norm_num, nearestEven_natCast] at hge
  exact absurd h (not_lt.2 hge)

/-- Below the overflow threshold the result is finite and its magnitude is the rounded number of units (R71):
`round64_spec` without its bound of 2^1023. -/
theorem round64_of_lt_overflow {s : Bool} {m : ℚ} (hm : 0 < m) (h : m < 2 ^ 1024 - 2 ^ 970) :
    isFinite (round64 s m) = true ∧ magnitude (round64 s m) = roundedUnits m * pow2 (binade m - 52) := by
  obtain ⟨hE, hup⟩ := binade_le_of_lt_overflow hm h
  obtain ⟨hfin, -, hmag⟩ := packRounded_spec (s := s) (binade_ge m) (roundedUnits_le hm)
    (binade_eq_of_roundedUnits_lt hm) hup hE
  exact ⟨hfin, hmag⟩

/-- From the overflow threshold on the result is the infinity of the sign (R71). -/
theorem round64_of_overflow_le {s : Bool} {m : ℚ} (hm : 0 < m) (h : 2 ^ 1024 - 2 ^ 970 ≤ m) :
    round64 s m = infF64 s := by
  rw [round64_eq, packRounded]
  obtain hE | ⟨hE, hk⟩ := binade_of_overflow_le hm h
  · have htop : (if roundedUnits m = 2 ^ 53 then binade m + 1 else binade m) > 1023 := by
      split_ifs <;> omega
    exact if_pos htop
  · exact if_pos (by rw [if_pos hk, hE]; norm_num)

/-- The value of a pattern of sign 0 is its magnitude (R70). -/
theorem val_of_sgn_false {p : F64} (h : sgn p = false) : val p = magnitude p := by
  rw [val, h, if_neg Bool.false_ne_true]

/-! ## Nearest, with ties to even (R71) -/

/-- Every finite value is at least as far from the magnitude as some whole number of units, and farther unless it is that
number of units. -/
theorem exists_units_as_near {m : ℚ} (hm : 0 < m) {q : F64} (hq : isFinite q = true) :
    ∃ z : ℤ, val q = z * pow2 (binade m - 52) ∨ |m - z * pow2 (binade m - 52)| < |m - val q| := by
  obtain ⟨z, hz⟩ | ⟨hE, hbelow⟩ := val_eq_units_or_lt_binade hq (binade m)
  · exact ⟨z, .inl hz⟩
  · have hbottom := pow2_binade_le hm hE.ne'
    have hunits : ((2 ^ 52 : ℤ) : ℚ) * pow2 (binade m - 52) = pow2 (binade m) := by
      rw [Int.cast_pow, Int.cast_ofNat]
      exact two_pow_mul_pow2 (by omega)
    refine ⟨2 ^ 52, .inr ?_⟩
    rw [hunits, abs_of_nonneg (sub_nonneg.2 hbottom),
      abs_of_pos (sub_pos.2 (hbelow.trans_le hbottom))]
    exact sub_lt_sub_left hbelow m

/-- No whole number of units is nearer than the rounded one, and where another one is as near the rounded one is even. -/
theorem roundedUnits_nearest {m : ℚ} (hm : 0 < m) (z : ℤ) :
    |m - roundedUnits m * pow2 (binade m - 52)| ≤ |m - z * pow2 (binade m - 52)| ∧
      (z ≠ roundedUnits m →
        |m - z * pow2 (binade m - 52)| = |m - roundedUnits m * pow2 (binade m - 52)| → roundedUnits m % 2 = 0) := by
  have hu := pow2_pos (binade m - 52)
  have hdist (r : ℚ) : |m - r * pow2 (binade m - 52)| = |m / pow2 (binade m - 52) - r| * pow2 (binade m - 52) := by
    rw [← abs_of_pos hu, ← abs_mul, abs_of_pos hu, sub_mul, div_mul_cancel₀ _ hu.ne']
  obtain ⟨hnear, heven⟩ := nearestEven_nearest (div_pos hm hu).le z
  rw [hdist, hdist]
  exact ⟨mul_le_mul_of_nonneg_right hnear hu.le, fun hz heq => heven hz (mul_right_cancel₀ hu.ne' heq)⟩

/-- No finite value is nearer than the rounded number of units, and where another one is as near that number is even. -/
theorem roundedUnits_nearest_val {m : ℚ} (hm : 0 < m) {q : F64} (hq : isFinite q = true) :
    |m - roundedUnits m * pow2 (binade m - 52)| ≤ |m - val q| ∧
      (val q ≠ roundedUnits m * pow2 (binade m - 52) →
        |m - val q| = |m - roundedUnits m * pow2 (binade m - 52)| → roundedUnits m % 2 = 0) := by
  obtain ⟨z, hz | hfar⟩ := exists_units_as_near hm hq
  · obtain ⟨hnear, heven⟩ := roundedUnits_nearest hm z
    rw [hz]
    exact ⟨hnear, fun hne => heven fun heq => hne (by rw [heq, Int.cast_natCast])⟩
  · have hlt := (roundedUnits_nearest hm z).1.trans_lt hfar
    exact ⟨hlt.le, fun _ htie => absurd htie hlt.ne'⟩

/-- For the sign 0: the result is nearest, and where another finite value is as near the significand is even (R71). -/
theorem round64_false_nearest {m : ℚ} (hm : 0 < m) (h : m < 2 ^ 1024 - 2 ^ 970) :
    Nearest m (round64 false m) ∧
      ∀ q, isFinite q = true → val q ≠ val (round64 false m) →
        |m - val q| = |m - val (round64 false m)| → fracField (round64 false m) % 2 = 0 := by
  obtain ⟨hfin, hmag⟩ := round64_of_lt_overflow (s := false) hm h
  rw [← val_of_sgn_false (sgn_round64 _ _)] at hmag
  refine ⟨⟨hfin, fun q hq => ?nearest⟩, fun q hq hne htie => ?even⟩
  case nearest =>
    rw [hmag]
    exact (roundedUnits_nearest_val hm hq).1
  case even =>
    rw [hmag] at hne htie
    rw [round64_eq, fracField_packRounded_parity (binade_le_of_lt_overflow hm h).1 (roundedUnits_le hm)]
    exact (roundedUnits_nearest_val hm hq).2 hne htie

/-! ## The two signs alike -/

@[simp] theorem negF64_negF64 (p : F64) : negF64 (negF64 p) = p := eq_of_fields_eq (by simp) (by simp) (by simp)

@[simp] theorem isNaN_negF64 (p : F64) : isNaN (negF64 p) = isNaN p := by simp [isNaN]
@[simp] theorem isInf_negF64 (p : F64) : isInf (negF64 p) = isInf p := by simp [isInf]
@[simp] theorem isFinite_negF64 (p : F64) : isFinite (negF64 p) = isFinite p := by simp [isFinite]

/-- Negating both reals keeps their distance. -/
theorem abs_neg_sub_val_negF64 (x : ℚ) (p : F64) : |-x - val (negF64 p)| = |x - val p| := by
  rw [val_negF64, ← abs_neg]
  congr 1
  ring

/-- The pattern nearest to the negated real is the negated pattern. -/
theorem Nearest.neg {x : ℚ} {p : F64} (h : Nearest x p) : Nearest (-x) (negF64 p) := by
  obtain ⟨hfin, hnear⟩ := h
  refine ⟨(isFinite_negF64 p).trans hfin, fun q hq => ?_⟩
  rw [abs_neg_sub_val_negF64, ← negF64_negF64 q, abs_neg_sub_val_negF64]
  exact hnear (negF64 q) ((isFinite_negF64 q).trans hq)

/-- Below the overflow threshold `round64` returns a pattern nearest to the real of its sign and magnitude (R71). -/
theorem round64_nearest {s : Bool} {m : ℚ} (hm : 0 < m) (h : m < 2 ^ 1024 - 2 ^ 970) :
    Nearest (if s then -m else m) (round64 s m) := by
  cases s with
  | false => exact (round64_false_nearest hm h).1
  | true =>
    rw [round64_true]
    exact (round64_false_nearest hm h).1.neg

/-- Where another finite value is as near, the significand `round64` returns is even (R71). -/
theorem round64_tie_even {s : Bool} {m : ℚ} (hm : 0 < m) (h : m < 2 ^ 1024 - 2 ^ 970) {q : F64}
    (hq : isFinite q = true) (hne : val q ≠ val (round64 s m))
    (htie : |(if s then -m else m) - val q| = |(if s then -m else m) - val (round64 s m)|) :
    fracField (round64 s m) % 2 = 0 := by
  have hfalse := (round64_false_nearest hm h).2
  cases s with
  | false => exact hfalse q hq hne htie
  | true =>
    rw [round64_true] at hne htie ⊢
    rw [fracField_negF64]
    rw [if_pos rfl, ← negF64_negF64 q, abs_neg_sub_val_negF64, abs_neg_sub_val_negF64] at htie
    refine hfalse (negF64 q) ((isFinite_negF64 q).trans hq) (fun heq => hne ?_) htie
    rw [val_negF64, ← heq, val_negF64, neg_neg]

/-- Settles O36: the finite values near a magnitude are whole numbers of its binade's units, among which the integer
rounding chooses. -/
theorem round64IsNearestTiesToEven : Obligations.Round64IsNearestTiesToEven := by
  intro s m hm
  exact ⟨sgn_round64 s m, round64_nearest hm, fun h q hq hne htie => round64_tie_even hm h hq hne htie,
    round64_of_overflow_le hm⟩

end Sys2Proof.Machine

namespace Sys2Proof.Machine

/-! ## The four functions round the exact result (R73 to R76) -/

theorem isFinite_infF64 (s : Bool) : isFinite (infF64 s) = false := by cases s <;> decide
theorem isFinite_zeroF64 (s : Bool) : isFinite (zeroF64 s) = true := by cases s <;> decide

@[simp] theorem val_zeroF64 (s : Bool) : val (zeroF64 s) = 0 := by
  have hmag : magnitude (zeroF64 s) = 0 := by
    rw [magnitude_eq_zero_iff (isFinite_zeroF64 s)]
    cases s <;> decide
  rw [← abs_eq_zero, abs_val, hmag]

/-- The value is the magnitude with the sign (R70). -/
theorem val_eq_sign_magnitude (p : F64) : val p = if sgn p then -magnitude p else magnitude p := rfl

/-- A finite value is 0 exactly for the two zeros (R70). -/
theorem val_eq_zero_iff {p : F64} (h : isFinite p = true) : val p = 0 ↔ classify p = .zero := by
  rw [← magnitude_eq_zero_iff h, ← abs_val, abs_eq_zero]

/-- A zero is nearest to the real 0. -/
theorem nearest_zeroF64 (s : Bool) : Nearest 0 (zeroF64 s) := by
  refine ⟨isFinite_zeroF64 s, fun q _ => ?_⟩
  rw [val_zeroF64, sub_zero, abs_zero]
  exact abs_nonneg _

/-- A rounded magnitude is finite only below the overflow threshold (R71). -/
theorem lt_overflow_of_isFinite_round64 {s : Bool} {m : ℚ} (hm : 0 < m) (h : isFinite (round64 s m) = true) :
    m < 2 ^ 1024 - 2 ^ 970 := by
  by_contra hc
  rw [round64_of_overflow_le hm (not_lt.1 hc), isFinite_infF64] at h
  contradiction

/-- What the four functions return for an exact result of sign `s` and magnitude `m`, a zero where it is 0 and the rounded
magnitude otherwise, is nearest to that exact result where it is finite (R71, R72). -/
theorem nearest_of_isFinite {s z : Bool} {m : ℚ} (hm : 0 ≤ m)
    (h : isFinite (if m = 0 then zeroF64 z else round64 s m) = true) :
    Nearest (if s then -m else m) (if m = 0 then zeroF64 z else round64 s m) := by
  obtain rfl | hpos := hm.eq_or_lt
  · rw [if_pos rfl, neg_zero, ite_self]
    exact nearest_zeroF64 z
  · rw [if_neg hpos.ne'] at h ⊢
    exact round64_nearest hpos (lt_overflow_of_isFinite_round64 hpos h)

/-- A real is its absolute value with its sign. -/
theorem sign_abs_eq (r : ℚ) : (if decide (r < 0) then -|r| else |r|) = r := by
  by_cases h : r < 0
  · rw [decide_eq_true h, if_pos rfl, abs_of_neg h, neg_neg]
  · rw [decide_eq_false h, if_neg Bool.false_ne_true, abs_of_nonneg (not_lt.1 h)]

/-- The sum is a rounded magnitude with its sign (R73(c)). -/
theorem fadd_eq_round {x y : F64} (hx : isFinite x = true) (hy : isFinite y = true) :
    fadd x y = if |val x + val y| = 0 then zeroF64 (sgn x && sgn y)
      else round64 (decide (val x + val y < 0)) |val x + val y| := by
  rw [fadd_finite hx hy]
  simp only [abs_eq_zero]

/-- The quotient by a divisor that is not a zero is a rounded magnitude with its sign (R76(d), (e)). -/
theorem fdiv_eq_round {x y : F64} (hx : isFinite x = true) (hy : isFinite y = true) (h : val y ≠ 0) :
    fdiv x y = if magnitude x / magnitude y = 0 then zeroF64 (sgn x != sgn y)
      else round64 (sgn x != sgn y) (magnitude x / magnitude y) := by
  have hmag : magnitude y ≠ 0 := by rwa [← abs_val, abs_ne_zero]
  rw [fdiv_finite hx hy (mt (val_eq_zero_iff hy).2 h)]
  simp only [div_eq_zero_iff, hmag, or_false, magnitude_eq_zero_iff hx]

/-- The sign of a product is the exclusive or of the signs (R75). -/
theorem val_mul_val (x y : F64) :
    val x * val y = if sgn x != sgn y then -(magnitude x * magnitude y) else magnitude x * magnitude y := by
  rw [val_eq_sign_magnitude x, val_eq_sign_magnitude y]
  cases sgn x <;> cases sgn y <;> simp

/-- The sign of a quotient is the exclusive or of the signs (R76). -/
theorem val_div_val (x y : F64) :
    val x / val y = if sgn x != sgn y then -(magnitude x / magnitude y) else magnitude x / magnitude y := by
  rw [val_eq_sign_magnitude x, val_eq_sign_magnitude y]
  cases sgn x <;> cases sgn y <;> simp [neg_div, div_neg]

theorem fadd_nearest {x y : F64} (hx : isFinite x = true) (hy : isFinite y = true) (h : isFinite (fadd x y) = true) :
    Nearest (val x + val y) (fadd x y) := by
  rw [fadd_eq_round hx hy] at h ⊢
  have hnear := nearest_of_isFinite (abs_nonneg _) h
  rwa [sign_abs_eq] at hnear

theorem fsub_nearest {x y : F64} (hx : isFinite x = true) (hy : isFinite y = true) (h : isFinite (fsub x y) = true) :
    Nearest (val x - val y) (fsub x y) := by
  rw [sub_eq_add_neg, ← val_negF64]
  exact fadd_nearest hx ((isFinite_negF64 y).trans hy) h

theorem fmul_nearest {x y : F64} (hx : isFinite x = true) (hy : isFinite y = true) (h : isFinite (fmul x y) = true) :
    Nearest (val x * val y) (fmul x y) := by
  rw [fmul_finite hx hy] at h ⊢
  rw [val_mul_val]
  exact nearest_of_isFinite (mul_nonneg (magnitude_nonneg x) (magnitude_nonneg y)) h

theorem fdiv_nearest {x y : F64} (hx : isFinite x = true) (hy : isFinite y = true) (hy0 : val y ≠ 0)
    (h : isFinite (fdiv x y) = true) : Nearest (val x / val y) (fdiv x y) := by
  rw [fdiv_eq_round hx hy hy0] at h ⊢
  rw [val_div_val]
  exact nearest_of_isFinite (div_nonneg (magnitude_nonneg x) (magnitude_nonneg y)) h

/-- Settles O37: each function is a zero or one rounding of the magnitude of its exact result. -/
theorem fourFunctionsRoundTheExactResult : Obligations.FourFunctionsRoundTheExactResult := by
  intro x y hx hy
  exact ⟨fadd_nearest hx hy, fsub_nearest hx hy, fmul_nearest hx hy, fdiv_nearest hx hy⟩

/-! ## NaN operands, and a value less itself (R73(a), R74) -/

theorem fadd_of_isNaN {x y : F64} (h : isNaN x = true ∨ isNaN y = true) : fadd x y = nanF64 := by
  rw [fadd, if_pos (Bool.or_eq_true_iff.2 h)]

theorem fsub_of_isNaN {x y : F64} (h : isNaN x = true ∨ isNaN y = true) : fsub x y = nanF64 :=
  fadd_of_isNaN (h.imp_right (isNaN_negF64 y).trans)

/-- The exact difference is 0, and the two signs differ, so the zero is the positive one (R74). -/
theorem fsub_self {x : F64} (h : isFinite x = true) : fsub x x = zeroF64 false := by
  rw [fsub, fadd_finite h ((isFinite_negF64 x).trans h), val_negF64, if_pos (add_neg_cancel _), sgn_negF64,
    Bool.and_not_self]

/-- Settles O38: subtraction is defined as that addition; the other two clauses are the lemmas above. -/
theorem subtractionOfItselfIsPlusZero : Obligations.SubtractionOfItselfIsPlusZero :=
  ⟨fun _ _ => rfl, fun _ _ hy => fsub_of_isNaN (.inr hy), fun _ hx => (fsub_self hx).trans rfl⟩

/-! ## Results that need no rounding (R77, R82) -/

/-- In units of its binade, a significand of at most 53 bits is a whole number (R71). -/
theorem roundedUnits_exact {k : ℕ} {e : ℤ} (h0 : 0 < k) (hk : k < 2 ^ 53) (he : -1074 ≤ e) :
    roundedUnits (k * pow2 e) * pow2 (binade (k * pow2 e) - 52) = k * pow2 e := by
  have hm : (0 : ℚ) < k * pow2 e := mul_pos (Nat.cast_pos.2 h0) (pow2_pos e)
  have htop : (k : ℚ) * pow2 e < pow2 (max (e + 52) (-1022) + 1) :=
    (units_mul_pow2_lt hk e).trans_le (pow2_le_pow2 (by omega))
  have hbin : binade (k * pow2 e) ≤ e + 52 := (binade_le_of_lt hm (le_max_right _ _) htop).trans (by omega)
  have hunits : (k : ℚ) * pow2 e / pow2 (binade (k * pow2 e) - 52) =
      ((k * 2 ^ (e - (binade (k * pow2 e) - 52)).toNat : ℕ) : ℚ) := by
    rw [div_eq_iff (pow2_ne_zero _), Nat.cast_mul, Nat.cast_pow, Nat.cast_ofNat, mul_assoc,
      two_pow_mul_pow2 (f := e) (by omega)]
  rw [roundedUnits, hunits, nearestEven_natCast, ← hunits, div_mul_cancel₀ _ (pow2_ne_zero _)]

/-- A magnitude that a pattern has is returned as it is (R71): `round64_exact` up to the largest finite one. -/
theorem round64_of_units {s : Bool} {k : ℕ} {e : ℤ} (h0 : 0 < k) (hk : k < 2 ^ 53) (he : -1074 ≤ e)
    (h : (k : ℚ) * pow2 e < pow2 1024) :
    isFinite (round64 s (k * pow2 e)) = true ∧ magnitude (round64 s (k * pow2 e)) = k * pow2 e := by
  have hm : (0 : ℚ) < k * pow2 e := mul_pos (Nat.cast_pos.2 h0) (pow2_pos e)
  have hexact := roundedUnits_exact h0 hk he
  have hE : binade (k * pow2 e) ≤ 1023 := binade_le_of_lt hm (by norm_num) (h.trans_eq (by norm_num))
  have hup : roundedUnits (k * pow2 e) ≠ 2 ^ 53 := by
    intro hfull
    rw [hfull, Nat.cast_pow, Nat.cast_ofNat, two_pow_mul_pow2 (f := binade (k * pow2 e) + 1) (by omega)] at hexact
    exact (lt_pow2_binade hm).ne' hexact
  obtain ⟨hfin, -, hmag⟩ := packRounded_spec (s := s) (binade_ge _) (roundedUnits_le hm)
    (binade_eq_of_roundedUnits_lt hm) (fun hfull => absurd hfull hup) hE
  exact ⟨hfin, hmag.trans hexact⟩

/-- What the functions return for an exact result that a pattern has is that result, a zero included (R71, R82). -/
theorem round_exact {s z : Bool} {m : ℚ} {k : ℕ} {e : ℤ} (hm : m = k * pow2 e) (hk : k < 2 ^ 53) (he : -1074 ≤ e)
    (h : m < pow2 1024) :
    isFinite (if m = 0 then zeroF64 z else round64 s m) = true ∧
      val (if m = 0 then zeroF64 z else round64 s m) = if s then -m else m := by
  by_cases hm0 : m = 0
  · rw [if_pos hm0, hm0, val_zeroF64, neg_zero, ite_self]
    exact ⟨isFinite_zeroF64 z, rfl⟩
  · have hk0 : 0 < k := Nat.pos_of_ne_zero fun hk0 => hm0 (by rw [hm, hk0, Nat.cast_zero, zero_mul])
    subst hm
    obtain ⟨hfin, hmag⟩ := round64_of_units (s := s) hk0 hk he h
    rw [if_neg hm0, val_eq_sign_magnitude, sgn_round64, hmag]
    exact ⟨hfin, rfl⟩

theorem fmul_exact {x y : F64} {k : ℕ} {e : ℤ} (hx : isFinite x = true) (hy : isFinite y = true)
    (hm : magnitude x * magnitude y = k * pow2 e) (hk : k < 2 ^ 53) (he : -1074 ≤ e)
    (h : magnitude x * magnitude y < pow2 1024) : isFinite (fmul x y) = true ∧ val (fmul x y) = val x * val y := by
  rw [fmul_finite hx hy, val_mul_val]
  exact round_exact hm hk he h

theorem fdiv_exact {x y : F64} {k : ℕ} {e : ℤ} (hx : isFinite x = true) (hy : isFinite y = true) (hy0 : val y ≠ 0)
    (hm : magnitude x / magnitude y = k * pow2 e) (hk : k < 2 ^ 53) (he : -1074 ≤ e)
    (h : magnitude x / magnitude y < pow2 1024) : isFinite (fdiv x y) = true ∧ val (fdiv x y) = val x / val y := by
  rw [fdiv_eq_round hx hy hy0, val_div_val]
  exact round_exact hm hk he h

/-- An integer below 2^53 is its own significand, in units of 1 (R77). -/
theorem u2f_exact {n : ℕ} (h : n < 2 ^ 53) : isFinite (u2f n) = true ∧ val (u2f n) = n := by
  have hunits : (n : ℚ) = n * pow2 0 := by rw [pow2_eq_zpow, zpow_zero, mul_one]
  have hbound : (n : ℚ) < pow2 1024 :=
    hunits ▸ (units_mul_pow2_lt h 0).trans_le (pow2_le_pow2 (by norm_num))
  have hexact := round_exact (s := false) (z := false) hunits h (by norm_num) hbound
  simp only [Nat.cast_eq_zero, Bool.false_eq_true, if_false] at hexact
  exact hexact

/-- Settles O39: an integer up to 2^32 has at most 53 bits. -/
theorem integerConversionIsExact : Obligations.IntegerConversionIsExact :=
  ⟨rfl, fun _ hn => u2f_exact (hn.trans_lt (by norm_num))⟩

/-! ## Scaling by powers of two (R82) -/

theorem isFinite_scale : isFinite scale = true := by decide
theorem isFinite_two : isFinite two = true := by decide
theorem sgn_scale : sgn scale = false := by decide

theorem magnitude_scale : magnitude scale = pow2 26 := by
  rw [← val_of_sgn_false sgn_scale, val_scale, ← pow2_natCast]
  rfl

theorem magnitude_two : magnitude two = pow2 1 := by
  rw [← val_of_sgn_false (by decide), val_two, pow2_eq_zpow, zpow_one]

/-- Dividing units by a power of two. -/
theorem mul_pow2_div_pow2 (r : ℚ) (a b : ℤ) : r * pow2 a / pow2 b = r * pow2 (a - b) := by
  rw [div_eq_iff (pow2_ne_zero b), mul_assoc, ← pow2_add, sub_add_cancel]

/-- Below 2^998 the product with 2^26 has the same significand in larger units (R82(a)). -/
theorem fmul_scale_exact {t : F64} (ht : isFinite t = true) (h : |val t| < 2 ^ 998) :
    isFinite (fmul scale t) = true ∧ val (fmul scale t) = 2 ^ 26 * val t := by
  obtain ⟨k, e, hk, ⟨he, -⟩, hmag⟩ := exists_magnitude_eq_units ht
  rw [abs_val, ← pow2_natCast] at h
  have hunits : magnitude scale * magnitude t = k * pow2 (e + 26) := by
    rw [magnitude_scale, hmag, pow2_add]
    ring
  have hbound : magnitude scale * magnitude t < pow2 1024 := by
    calc magnitude scale * magnitude t < pow2 26 * pow2 998 := by
          rw [magnitude_scale]
          exact mul_lt_mul_of_pos_left h (pow2_pos 26)
      _ = pow2 1024 := by rw [← pow2_add]; norm_num
  rw [← val_scale]
  exact fmul_exact isFinite_scale ht hunits hk (by omega) hbound

/-- From 2^998 on the product with 2^26 is past the overflow threshold (R82(a)). -/
theorem fmul_scale_overflow {t : F64} (ht : isFinite t = true) (h : 2 ^ 998 ≤ |val t|) :
    fmul scale t = infF64 (sgn t) := by
  rw [abs_val, ← pow2_natCast] at h
  have hbound : pow2 1024 ≤ magnitude scale * magnitude t := by
    calc pow2 1024 = pow2 26 * pow2 998 := by rw [← pow2_add]; norm_num
      _ ≤ magnitude scale * magnitude t := by
          rw [magnitude_scale]
          exact mul_le_mul_of_nonneg_left h (pow2_pos 26).le
  have hpos := (pow2_pos 1024).trans_le hbound
  rw [fmul_finite isFinite_scale ht, if_neg hpos.ne', sgn_scale, Bool.false_bne]
  refine round64_of_overflow_le hpos (le_trans ?_ hbound)
  rw [← pow2_natCast 1024]
  exact sub_le_self _ (by positivity)

/-- An integer below 2^53 divided by 2^26 is the same significand in smaller units (R82(b)). -/
theorem fdiv_u2f_scale_exact {n : ℕ} (h : n < 2 ^ 53) :
    isFinite (fdiv (u2f n) scale) = true ∧ val (fdiv (u2f n) scale) = (n : ℚ) / 2 ^ 26 := by
  obtain ⟨hfin, hval⟩ := u2f_exact h
  have hmag : magnitude (u2f n) = n * pow2 0 := by
    rw [← abs_val, hval, Nat.abs_cast, pow2_eq_zpow, zpow_zero, mul_one]
  have hunits : magnitude (u2f n) / magnitude scale = n * pow2 (-26) := by
    rw [hmag, magnitude_scale, mul_pow2_div_pow2]
    norm_num
  rw [← val_scale, ← hval]
  refine fdiv_exact hfin isFinite_scale (by rw [val_scale]; norm_num) hunits h (by norm_num) ?_
  rw [hunits]
  exact (units_mul_pow2_lt h _).trans_le (pow2_le_pow2 (by norm_num))

/-- A value of at least 2^-1021 has units of at least 2^-1073. -/
theorem exists_magnitude_eq_units_of_le {p : F64} (hp : isFinite p = true) (h : 1 / 2 ^ 1021 ≤ |val p|) :
    ∃ (k : ℕ) (e : ℤ), k < 2 ^ 53 ∧ (-1073 ≤ e ∧ e ≤ 971) ∧ magnitude p = k * pow2 e := by
  obtain ⟨k, e, hk, ⟨-, he⟩, hmag⟩ := exists_magnitude_eq_units hp
  have hbottom : pow2 (-1021) ≤ magnitude p := by
    rwa [← abs_val, pow2_eq_zpow, zpow_neg, ← one_div]
  have hlt : pow2 (-1021) < pow2 (e + 53) := hbottom.trans_lt (hmag ▸ units_mul_pow2_lt hk e)
  refine ⟨k, e, hk, ⟨?_, he⟩, hmag⟩
  by_contra hc
  exact absurd hlt (not_lt.2 (pow2_le_pow2 (by omega)))

/-- Half of a value is the same significand in units half as large, which are not below 2^-1074 (R82(c)). -/
theorem fdiv_two_exact {s : F64} (hs : isFinite s = true) (h : val s = 0 ∨ 1 / 2 ^ 1021 ≤ |val s|) :
    isFinite (fdiv s two) = true ∧ val (fdiv s two) = val s / 2 := by
  have hunits : ∃ (k : ℕ) (e : ℤ), k < 2 ^ 53 ∧ (-1073 ≤ e ∧ e ≤ 971) ∧ magnitude s = k * pow2 e := by
    obtain hzero | hlarge := h
    · exact ⟨0, 0, by norm_num, by norm_num, by rw [← abs_val, hzero, abs_zero, Nat.cast_zero, zero_mul]⟩
    · exact exists_magnitude_eq_units_of_le hs hlarge
  obtain ⟨k, e, hk, ⟨hlow, hhigh⟩, hmag⟩ := hunits
  have hhalf : magnitude s / magnitude two = k * pow2 (e - 1) := by
    rw [hmag, magnitude_two, mul_pow2_div_pow2]
  rw [← val_two]
  refine fdiv_exact hs isFinite_two (by rw [val_two]; norm_num) hhalf hk (by omega) ?_
  rw [hhalf]
  exact (units_mul_pow2_lt hk _).trans_le (pow2_le_pow2 (by omega))

/-- Settles O41: the four clauses are the lemmas above, for the integers up to 2^32 because they are below 2^53. -/
theorem scalingByPowersOfTwoIsExact : Obligations.ScalingByPowersOfTwoIsExact :=
  ⟨fun _ => fmul_scale_exact, fun _ => fmul_scale_overflow,
    fun _ hn => fdiv_u2f_scale_exact (hn.trans_lt (by norm_num)), fun _ => fdiv_two_exact⟩

end Sys2Proof.Machine

namespace Sys2Proof.Machine

/-! ## Conversion to `u32` (R78) -/

/-- Truncation toward zero is the ceiling below 0 and the floor from 0 on (R78). -/
theorem truncate_of_neg {x : ℚ} (h : x < 0) : truncate x = ⌈x⌉ := by
  rw [truncate, if_pos h]
  exact neg_eq_iff_eq_neg.2 (Int.floor_neg (a := x))

theorem truncate_of_nonneg {x : ℚ} (h : 0 ≤ x) : truncate x = ⌊x⌋ := if_neg (not_lt.2 h)

theorem truncate_nonpos {x : ℚ} (h : x ≤ 0) : truncate x ≤ 0 := by
  obtain hneg | rfl := h.lt_or_eq
  · rw [truncate_of_neg hneg]
    exact Int.ceil_le.2 (by exact_mod_cast h)
  · rw [truncate_of_nonneg le_rfl, Int.floor_zero]

theorem truncate_mono {x y : ℚ} (h : x ≤ y) : truncate x ≤ truncate y := by
  obtain hx | hx := lt_or_ge x 0
  · obtain hy | hy := lt_or_ge y 0
    · rw [truncate_of_neg hx, truncate_of_neg hy]
      exact Int.ceil_mono h
    · rw [truncate_of_nonneg hy]
      exact (truncate_nonpos hx.le).trans (Int.floor_nonneg.2 hy)
  · rw [truncate_of_nonneg hx, truncate_of_nonneg (hx.trans h)]
    exact Int.floor_mono h

/-- Saturation clamps to the range of `u32` (R78). -/
theorem saturateU32_toNat (n : ℤ) : ((saturateU32 n).toNat : ℤ) = max 0 (min n (2 ^ 32 - 1)) := by
  unfold saturateU32
  split_ifs with hneg hbig
  · rw [max_eq_left (min_le_of_left_le hneg.le)]
    rfl
  · rw [min_eq_right (by omega)]
    rfl
  · rw [BitVec.toNat_ofNat, Nat.mod_eq_of_lt (by omega)]
    omega

theorem f2u32_toNat {x : F64} (h : isFinite x = true) :
    ((f2u32 x).toNat : ℤ) = max 0 (min (truncate (val x)) (2 ^ 32 - 1)) := by
  rw [f2u32_finite h, saturateU32_toNat]

theorem f2u32_of_isNaN {x : F64} (h : isNaN x = true) : f2u32 x = 0x00000000#32 := if_pos h

theorem classify_of_isInf {x : F64} (h : isInf x = true) : classify x = .infinity := beq_iff_eq.1 h

theorem isNaN_of_isInf {x : F64} (h : isInf x = true) : isNaN x = false := by
  rw [isNaN, classify_of_isInf h]
  rfl

theorem f2u32_of_isInf {x : F64} (h : isInf x = true) :
    f2u32 x = if sgn x then 0x00000000#32 else 0xFFFFFFFF#32 := by
  rw [f2u32, isNaN_of_isInf h, if_neg Bool.false_ne_true, if_pos h]

/-- Nothing of a value of at most 0 is left after truncation and saturation (R78). -/
theorem f2u32_of_nonpos {x : F64} (hx : isFinite x = true) (h : val x ≤ 0) : f2u32 x = 0x00000000#32 := by
  have hclamp := f2u32_toNat hx
  have htrunc := truncate_nonpos h
  refine BitVec.eq_of_toNat_eq ?_
  rw [BitVec.toNat_ofNat]
  omega

theorem f2u32_of_lt_two_pow {x : F64} (hx : isFinite x = true) (hpos : 0 < val x) (h : val x < 2 ^ 32) :
    ((f2u32 x).toNat : ℤ) = ⌊val x⌋ := by
  have hfloor : ⌊val x⌋ < 2 ^ 32 := Int.floor_lt.2 (by exact_mod_cast h)
  have hnonneg : 0 ≤ ⌊val x⌋ := Int.floor_nonneg.2 hpos.le
  rw [f2u32_toNat hx, truncate_of_nonneg hpos.le]
  omega

theorem f2u32_of_two_pow_le {x : F64} (hx : isFinite x = true) (h : 2 ^ 32 ≤ val x) : f2u32 x = 0xFFFFFFFF#32 := by
  have hfloor : 2 ^ 32 ≤ ⌊val x⌋ := Int.le_floor.2 (by exact_mod_cast h)
  have hclamp := f2u32_toNat hx
  rw [truncate_of_nonneg (le_trans (by norm_num) h)] at hclamp
  refine BitVec.eq_of_toNat_eq ?_
  rw [BitVec.toNat_ofNat]
  omega

/-- The conversion does not decrease, the infinities at the two ends (R78). -/
theorem f2u32_mono {x y : F64} (h : LeF64 x y) : (f2u32 x).toNat ≤ (f2u32 y).toNat := by
  obtain ⟨-, -, ⟨hinf, hs⟩ | ⟨hinf, hs⟩ | ⟨hx, hy, hval⟩⟩ := h
  · rw [f2u32_of_isInf hinf, hs]
    exact Nat.zero_le _
  · rw [f2u32_of_isInf hinf, hs]
    exact Nat.le_of_lt_succ (f2u32 x).isLt
  · have htrunc := truncate_mono hval
    have hclampx := f2u32_toNat hx
    have hclampy := f2u32_toNat hy
    omega

/-- Settles O40: one lemma per row of the table, the two rows of values of at most 0 by one. -/
theorem conversionToU32TruncatesAndSaturates : Obligations.ConversionToU32TruncatesAndSaturates := by
  refine ⟨fun _ => f2u32_of_isNaN, ?bottom, fun x hx _ h => f2u32_of_nonpos hx h, fun x => f2u32_of_lt_two_pow, ?top,
    fun x y => f2u32_mono⟩
  case bottom =>
    rintro x (rfl | ⟨hx, h⟩)
    · exact f2u32_of_isInf (by decide)
    · exact f2u32_of_nonpos hx (h.trans (by norm_num))
  case top =>
    rintro x (rfl | ⟨hx, h⟩)
    · exact f2u32_of_isInf (by decide)
    · exact f2u32_of_two_pow_le hx h

/-! ## NaN and infinite coordinates (R79, R105) -/

theorem fmul_of_isNaN {x y : F64} (h : isNaN x = true ∨ isNaN y = true) : fmul x y = nanF64 := by
  rw [fmul, if_pos (Bool.or_eq_true_iff.2 h)]

theorem fdiv_of_isNaN {x y : F64} (h : isNaN x = true ∨ isNaN y = true) : fdiv x y = nanF64 := by
  rw [fdiv, if_pos (Bool.or_eq_true_iff.2 h)]

/-- An infinity absorbs a finite summand (R73(b)). -/
theorem fadd_of_isInf {x y : F64} (hx : isInf x = true) (hy : isFinite y = true) : fadd x y = x := by
  simp [fadd, hx, isNaN_of_isInf hx, isFinite_not_nan hy, isFinite_not_inf hy]

/-- An infinity times a finite factor that is not a zero (R75(b)). -/
theorem fmul_of_isInf {x y : F64} (hx : isFinite x = true) (hx0 : classify x ≠ .zero) (hy : isInf y = true) :
    fmul x y = infF64 (sgn x != sgn y) := by
  simp [fmul, hy, isNaN_of_isInf hy, isFinite_not_nan hx, hx0, classify_of_isInf hy]

/-- An infinity divided by a finite divisor (R76(c)). -/
theorem fdiv_of_isInf {x y : F64} (hx : isInf x = true) (hy : isFinite y = true) :
    fdiv x y = infF64 (sgn x != sgn y) := by
  simp [fdiv, hx, isNaN_of_isInf hx, isFinite_not_nan hy, isFinite_not_inf hy]

theorem isInf_infF64 (s : Bool) : isInf (infF64 s) = true := by cases s <;> decide
@[simp] theorem sgn_infF64 (s : Bool) : sgn (infF64 s) = s := sgn_packF64 _ _ _

/-- A NaN coordinate runs through the three steps to the conversion, which gives 0 (R79). -/
theorem normAxis_of_isNaN {v : F64} (min range : F64) (h : isNaN v = true) : normAxis v min range = 0x00000000#32 := by
  have hnan : isNaN nanF64 = true := by decide
  rw [normAxis, fsub_of_isNaN (.inl h), fmul_of_isNaN (.inr hnan), fdiv_of_isNaN (.inl hnan), f2u32_of_isNaN hnan]

/-- An infinite coordinate runs through the three steps with its sign to the conversion, which saturates (R105). -/
theorem normAxis_of_isInf {v min range : F64} (h : isInf v = true) (hmin : isFinite min = true)
    (hrange : isFinite range = true) (hs : sgn range = false) :
    normAxis v min range = if sgn v then 0x00000000#32 else 0xFFFFFFFF#32 := by
  have hsub : fsub v min = v := fadd_of_isInf h ((isFinite_negF64 min).trans hmin)
  rw [normAxis, hsub, fmul_of_isInf isFinite_scale (by decide) h, fdiv_of_isInf (isInf_infF64 _) hrange,
    f2u32_of_isInf (isInf_infF64 _), sgn_infF64, sgn_infF64, sgn_scale, hs, Bool.false_bne, Bool.bne_false]

theorem isFinite_minLat : isFinite minLat = true := by decide
theorem isFinite_minLon : isFinite minLon = true := by decide
theorem isFinite_latRange : isFinite latRange = true := by decide
theorem isFinite_lonRange : isFinite lonRange = true := by decide

theorem normLat_of_isInf {v : F64} (h : isInf v = true) : normLat v = if sgn v then 0x00000000#32 else 0xFFFFFFFF#32 :=
  normAxis_of_isInf h isFinite_minLat isFinite_latRange (by decide)

theorem normLon_of_isInf {v : F64} (h : isInf v = true) : normLon v = if sgn v then 0x00000000#32 else 0xFFFFFFFF#32 :=
  normAxis_of_isInf h isFinite_minLon isFinite_lonRange (by decide)

/-- Settles O46: the special coordinates stay special until the conversion. -/
theorem specialCoordinatesHaveFixedIndices : Obligations.SpecialCoordinatesHaveFixedIndices :=
  ⟨fun _ h => ⟨normAxis_of_isNaN _ _ h, normAxis_of_isNaN _ _ h⟩, normLat_of_isInf (by decide),
    normLon_of_isInf (by decide), normLat_of_isInf (by decide), normLon_of_isInf (by decide)⟩

/-! ## Subnormal and zero coordinates (R80) -/

/-- The zeros and the subnormals have the exponent field 0 (R70). -/
theorem expField_of_subnormal_or_zero {v : F64} (h : classify v = .subnormal ∨ classify v = .zero) :
    expField v = 0 := by
  by_contra hne
  rw [classify, if_neg hne] at h
  split_ifs at h <;> simp at h

/-- A zero or a subnormal is below the smallest normal magnitude (R70). -/
theorem abs_val_lt_of_subnormal_or_zero {v : F64} (h : classify v = .subnormal ∨ classify v = .zero) :
    isFinite v = true ∧ |val v| < pow2 (-1022) := by
  have hexp := expField_of_subnormal_or_zero h
  have hfrac : (fracField v : ℚ) < 2 ^ 52 := by exact_mod_cast fracField_lt v
  refine ⟨(isFinite_iff v).2 (by omega), ?_⟩
  rw [abs_val, magnitude_of_expField_zero hexp]
  calc fracField v * pow2 (-1074) < 2 ^ 52 * pow2 (-1074) := mul_lt_mul_of_pos_right hfrac (pow2_pos _)
    _ = pow2 (-1022) := two_pow_mul_pow2 (by norm_num)

/-- A summand below a quarter of a unit of the other one, which lies inside its binade, is rounded away (R71, R73). -/
theorem fadd_of_abs_val_lt {v c : F64} {E : ℤ} {k : ℕ} (hv : isFinite v = true) (hc : isFinite c = true)
    (hE : -1022 ≤ E) (hk : 2 ^ 52 < k ∧ k < 2 ^ 53) (hval : val c = k * pow2 (E - 52))
    (hsmall : |val v| < pow2 (E - 54)) : fadd v c = packRounded false E k := by
  have hu := pow2_pos (E - 52)
  have hquarter : (2 : ℚ) ^ 2 * pow2 (E - 54) = pow2 (E - 52) := two_pow_mul_pow2 (by omega)
  have hlow : (2 : ℚ) ^ 52 * pow2 (E - 52) = pow2 E := two_pow_mul_pow2 (by omega)
  have hhigh : (2 : ℚ) ^ 53 * pow2 (E - 52) = pow2 (E + 1) := two_pow_mul_pow2 (by omega)
  have hklow : ((2 ^ 52 + 1 : ℕ) : ℚ) * pow2 (E - 52) ≤ k * pow2 (E - 52) :=
    mul_le_mul_of_nonneg_right (Nat.cast_le.2 hk.1) hu.le
  have hkhigh : ((k + 1 : ℕ) : ℚ) * pow2 (E - 52) ≤ (2 ^ 53 : ℕ) * pow2 (E - 52) :=
    mul_le_mul_of_nonneg_right (Nat.cast_le.2 hk.2) hu.le
  push_cast at hklow hkhigh
  obtain ⟨hneg, hpos⟩ := abs_lt.1 hsmall
  have hlo : pow2 E ≤ val v + val c := by rw [hval]; linarith
  have hhi : val v + val c < pow2 (E + 1) := by rw [hval]; linarith
  have hsum : 0 < val v + val c := (pow2_pos E).trans_le hlo
  have hnear : |(val v + val c) / pow2 (E - 52) - k| < 1 / 2 := by
    rw [hval, add_div, mul_div_cancel_right₀ _ hu.ne', add_sub_cancel_right, abs_div, abs_of_pos hu, div_lt_iff₀ hu]
    linarith
  rw [fadd_finite hv hc, if_neg hsum.ne', decide_eq_false hsum.le.not_gt, abs_of_pos hsum]
  rw [pow2_eq_zpow] at hlo hhi hnear
  exact round64_eq_packRounded hE hlo hhi hnear

/-- Below the normal magnitudes every coordinate gives one and the same difference, on each axis (R80(a)). -/
theorem fsub_minLat_of_subnormal_or_zero {v : F64} (h : classify v = .subnormal ∨ classify v = .zero) :
    fsub v minLat = packRounded false 6 0x154345B1A57F00 := by
  obtain ⟨hfin, hsmall⟩ := abs_val_lt_of_subnormal_or_zero h
  refine fadd_of_abs_val_lt hfin (by decide) (by norm_num) (by norm_num) ?_
    (hsmall.trans_le (pow2_le_pow2 (by norm_num)))
  rw [val_negF64, val_minLat, neg_neg, val_maxLat, pow2_eq_zpow]
  norm_num

theorem fsub_minLon_of_subnormal_or_zero {v : F64} (h : classify v = .subnormal ∨ classify v = .zero) :
    fsub v minLon = packRounded false 7 0x16800000000000 := by
  obtain ⟨hfin, hsmall⟩ := abs_val_lt_of_subnormal_or_zero h
  refine fadd_of_abs_val_lt hfin (by decide) (by norm_num) (by norm_num) ?_
    (hsmall.trans_le (pow2_le_pow2 (by norm_num)))
  rw [val_negF64, val_minLon, neg_neg, pow2_eq_zpow]
  norm_num

/-- The index depends on the coordinate through the difference only (R101). -/
theorem normAxis_congr {v w min : F64} (range : F64) (h : fsub v min = fsub w min) :
    normAxis v min range = normAxis w min range := by
  rw [normAxis, h, normAxis]

/-- Settles O47: the difference is rounded to the one that +0 gives. -/
theorem subnormalCoordinatesActAsZero : Obligations.SubnormalCoordinatesActAsZero := by
  intro v hv
  have hzero : classify 0#64 = .subnormal ∨ classify 0#64 = .zero := by decide
  have hlat := (fsub_minLat_of_subnormal_or_zero hv).trans (fsub_minLat_of_subnormal_or_zero hzero).symm
  have hlon := (fsub_minLon_of_subnormal_or_zero hv).trans (fsub_minLon_of_subnormal_or_zero hzero).symm
  exact ⟨hlat, hlon, normAxis_congr _ hlat, normAxis_congr _ hlon⟩

/-! ## Bounds that rounding keeps, and the inverse function (R112) -/

/-- Rounding does not take a magnitude past a power of two, because a pattern has that value (R71). -/
theorem round_bounded {s z : Bool} {m : ℚ} {n : ℕ} (hm : 0 ≤ m) (hn : n ≤ 1023) (h : m ≤ 2 ^ n) :
    isFinite (if m = 0 then zeroF64 z else round64 s m) = true ∧
      |val (if m = 0 then zeroF64 z else round64 s m)| ≤ 2 ^ n := by
  obtain rfl | hpos := hm.eq_or_lt
  · rw [if_pos rfl, val_zeroF64, abs_zero]
    exact ⟨isFinite_zeroF64 z, by positivity⟩
  · have hpow : ((1 : ℕ) : ℚ) * pow2 n = 2 ^ n := by rw [Nat.cast_one, one_mul, pow2_natCast]
    have htop : ((1 : ℕ) : ℚ) * pow2 n ≤ pow2 1023 := by
      rw [Nat.cast_one, one_mul]
      exact pow2_le_pow2 (by omega)
    have hle : m ≤ (1 : ℕ) * pow2 n := h.trans_eq hpow.symm
    rw [if_neg hpos.ne', abs_val, ← hpow]
    refine ⟨(round64_spec hpos (hle.trans htop)).1, (round64_mono (s' := s) hpos hle htop).trans_eq ?_⟩
    exact round64_exact one_pos (by norm_num) (by omega) htop

theorem fadd_bounded {x y : F64} {n : ℕ} (hx : isFinite x = true) (hy : isFinite y = true) (hn : n ≤ 1023)
    (h : |val x + val y| ≤ 2 ^ n) : isFinite (fadd x y) = true ∧ |val (fadd x y)| ≤ 2 ^ n := by
  rw [fadd_eq_round hx hy]
  exact round_bounded (abs_nonneg _) hn h

theorem fmul_bounded {x y : F64} {n : ℕ} (hx : isFinite x = true) (hy : isFinite y = true) (hn : n ≤ 1023)
    (h : |val x * val y| ≤ 2 ^ n) : isFinite (fmul x y) = true ∧ |val (fmul x y)| ≤ 2 ^ n := by
  rw [abs_mul, abs_val, abs_val] at h
  rw [fmul_finite hx hy]
  exact round_bounded (mul_nonneg (magnitude_nonneg x) (magnitude_nonneg y)) hn h

theorem fdiv_bounded {x y : F64} {n : ℕ} (hx : isFinite x = true) (hy : isFinite y = true) (hy0 : val y ≠ 0)
    (hn : n ≤ 1023) (h : |val x / val y| ≤ 2 ^ n) : isFinite (fdiv x y) = true ∧ |val (fdiv x y)| ≤ 2 ^ n := by
  rw [abs_div, abs_val, abs_val] at h
  rw [fdiv_eq_round hx hy hy0]
  exact round_bounded (div_nonneg (magnitude_nonneg x) (magnitude_nonneg y)) hn h

section
variable {min range : F64}

/-- The product is at most 2^9 · 2^6, and the sum at most twice that (R112(a)). -/
theorem cellBoundary_bounded {k : ℕ} (hk : k ≤ 2 ^ 32) (hmin : isFinite min = true) (hrange : isFinite range = true)
    (hmin8 : |val min| ≤ 2 ^ 8) (hrange9 : |val range| ≤ 2 ^ 9) :
    isFinite (cellBoundary k min range) = true ∧ |val (cellBoundary k min range)| ≤ 2 ^ 16 := by
  obtain ⟨hq, hqval⟩ := fdiv_u2f_scale_exact (n := k) (hk.trans_lt (by norm_num))
  have hkq : (k : ℚ) ≤ 2 ^ 32 := by exact_mod_cast hk
  have hq6 : |val (fdiv (u2f k) scale)| ≤ 2 ^ 6 := by
    rw [hqval, abs_of_nonneg (by positivity), div_le_iff₀ (by norm_num)]
    exact hkq.trans (by norm_num)
  obtain ⟨hp, hp15⟩ := fmul_bounded (n := 15) hrange hq (by norm_num) (by
    rw [abs_mul]
    exact (mul_le_mul hrange9 hq6 (abs_nonneg _) (by norm_num)).trans (by norm_num))
  exact fadd_bounded hmin hp (by norm_num) ((abs_add_le _ _).trans ((add_le_add hmin8 hp15).trans (by norm_num)))

/-- The midpoint of two boundaries of at most 2^16 is at most 2^16 (R112(a)). -/
theorem denormAxis_bounded (i : U32) (hmin : isFinite min = true) (hrange : isFinite range = true)
    (hmin8 : |val min| ≤ 2 ^ 8) (hrange9 : |val range| ≤ 2 ^ 9) :
    isFinite (denormAxis i min range) = true ∧ |val (denormAxis i min range)| ≤ 2 ^ 16 := by
  have hi := i.isLt
  obtain ⟨hlow, hlow16⟩ := cellBoundary_bounded (k := i.toNat) (by omega) hmin hrange hmin8 hrange9
  obtain ⟨hhigh, hhigh16⟩ := cellBoundary_bounded (k := i.toNat + 1) (by omega) hmin hrange hmin8 hrange9
  obtain ⟨hs, hs17⟩ := fadd_bounded (n := 17) hlow hhigh (by norm_num)
    ((abs_add_le _ _).trans ((add_le_add hlow16 hhigh16).trans (by norm_num)))
  refine fdiv_bounded hs isFinite_two (by rw [val_two]; norm_num) (by norm_num) ?_
  rw [val_two, abs_div, abs_two, div_le_iff₀ two_pos]
  exact hs17.trans (by norm_num)

end

theorem denormLat_bounded (i : U32) : isFinite (denormLat i) = true ∧ |val (denormLat i)| ≤ 2 ^ 16 := by
  refine denormAxis_bounded i isFinite_minLat isFinite_latRange ?_ ?_
  · rw [val_minLat, abs_neg, val_maxLat]
    norm_num [abs_le]
  · rw [val_latRange]
    norm_num [abs_le]

theorem denormLon_bounded (i : U32) : isFinite (denormLon i) = true ∧ |val (denormLon i)| ≤ 2 ^ 16 := by
  refine denormAxis_bounded i isFinite_minLon isFinite_lonRange ?_ ?_
  · rw [val_minLon]
    norm_num [abs_le]
  · rw [val_lonRange]
    norm_num [abs_le]

/-- Settles O50: both operations answer with cell centres, whatever their operands. -/
theorem noNaNReachesAnOutput : Obligations.NoNaNReachesAnOutput := by
  intro a b
  rw [respond_denorm, respond_decode]
  exact ⟨(denormLat_bounded _).1, (denormLon_bounded _).1, (denormLat_bounded _).1, (denormLon_bounded _).1⟩

end Sys2Proof.Machine

/-! # Proofs: the grid normalizer (41_grid_normalizer.md) -/

namespace Sys2Proof.Machine

/-! ## One rounding of an exact result (R71, R72) -/

/-- `p` is what the four functions return for the exact result `r`: one of the two zeros for 0, and otherwise the rounded
magnitude with the sign of `r`. -/
def RoundsTo (r : ℚ) (p : F64) : Prop := ∃ z, p = if r = 0 then zeroF64 z else round64 (decide (r < 0)) |r|

theorem roundsTo_of_sign_magnitude {s z : Bool} {m : ℚ} (hm : 0 ≤ m) :
    RoundsTo (if s then -m else m) (if m = 0 then zeroF64 z else round64 s m) := by
  refine ⟨z, ?_⟩
  obtain rfl | hpos := hm.eq_or_lt
  · simp
  · cases s <;> simp [hpos, hpos.ne', hpos.le.not_gt, abs_of_pos hpos]

section
variable {x y : F64} (hx : isFinite x = true) (hy : isFinite y = true)
include hx hy

theorem fadd_roundsTo : RoundsTo (val x + val y) (fadd x y) := ⟨_, fadd_finite hx hy⟩

theorem fsub_roundsTo : RoundsTo (val x - val y) (fsub x y) := by
  rw [sub_eq_add_neg, ← val_negF64]
  exact fadd_roundsTo hx ((isFinite_negF64 y).trans hy)

theorem fmul_roundsTo : RoundsTo (val x * val y) (fmul x y) := by
  rw [fmul_finite hx hy, val_mul_val]
  exact roundsTo_of_sign_magnitude (mul_nonneg (magnitude_nonneg x) (magnitude_nonneg y))

theorem fdiv_roundsTo (hy0 : val y ≠ 0) : RoundsTo (val x / val y) (fdiv x y) := by
  rw [fdiv_eq_round hx hy hy0, val_div_val]
  exact roundsTo_of_sign_magnitude (div_nonneg (magnitude_nonneg x) (magnitude_nonneg y))

end

/-- Below the overflow threshold the rounding is a nearest finite pattern, and from it on an infinity (R71). -/
theorem RoundsTo.nearest_or_overflow {r : ℚ} {p : F64} (h : RoundsTo r p) :
    (|r| < 2 ^ 1024 - 2 ^ 970 ∧ Nearest r p) ∨ (2 ^ 1024 - 2 ^ 970 ≤ |r| ∧ p = infF64 (decide (r < 0))) := by
  obtain ⟨z, rfl⟩ := h
  by_cases hr : r = 0
  · subst hr
    have hthreshold : |(0 : ℚ)| < 2 ^ 1024 - 2 ^ 970 := by
      rw [abs_zero, sub_pos]
      exact pow_lt_pow_right₀ one_lt_two (by norm_num)
    rw [if_pos rfl]
    exact .inl ⟨hthreshold, nearest_zeroF64 z⟩
  · have hpos : 0 < |r| := abs_pos.2 hr
    rw [if_neg hr]
    obtain hlt | hge := lt_or_ge |r| (2 ^ 1024 - 2 ^ 970)
    · have hnear := round64_nearest (s := decide (r < 0)) hpos hlt
      rw [sign_abs_eq] at hnear
      exact .inl ⟨hlt, hnear⟩
    · exact .inr ⟨hge, round64_of_overflow_le hpos hge⟩

/-- One exact result has one value, whichever zero it is rounded to. -/
theorem RoundsTo.val_eq {r : ℚ} {p q : F64} (hp : RoundsTo r p) (hq : RoundsTo r q) : val p = val q := by
  obtain ⟨z, rfl⟩ := hp
  obtain ⟨z', rfl⟩ := hq
  split_ifs
  · rw [val_zeroF64, val_zeroF64]
  · rfl

/-! ## The order of patterns (R107) -/

theorem leF64_iff_of_finite {x y : F64} (hx : isFinite x = true) (hy : isFinite y = true) :
    LeF64 x y ↔ val x ≤ val y := by
  simp [LeF64, isFinite_not_nan hx, isFinite_not_nan hy, isFinite_not_inf hx, isFinite_not_inf hy, hx, hy]

theorem infF64_true_leF64 {y : F64} (h : isNaN y = false) : LeF64 (infF64 true) y :=
  ⟨by decide, h, .inl (by decide)⟩

theorem leF64_infF64_false {x : F64} (h : isNaN x = false) : LeF64 x (infF64 false) :=
  ⟨h, by decide, .inr (.inl (by decide))⟩

theorem isFinite_or_isInf {x : F64} (h : isNaN x = false) : isFinite x = true ∨ isInf x = true := by
  cases hinf : isInf x <;> simp [isFinite, h, hinf]

/-- A pattern between two finite ones is finite. -/
theorem LeF64.isFinite_of_between {x y z : F64} (hx : isFinite x = true) (hz : isFinite z = true) (hxy : LeF64 x y)
    (hyz : LeF64 y z) : isFinite y = true := by
  obtain hy | hinf := isFinite_or_isInf hxy.2.1
  · exact hy
  · cases hs : sgn y with
    | false => simp [LeF64, hinf, hs, isFinite_not_inf hz, isFinite] at hyz
    | true => simp [LeF64, hinf, hs, isFinite_not_inf hx, isFinite] at hxy

/-- Any two patterns that are not NaNs are ordered. -/
theorem leF64_total {x y : F64} (hx : isNaN x = false) (hy : isNaN y = false) : LeF64 x y ∨ LeF64 y x := by
  obtain hfx | hix := isFinite_or_isInf hx
  · obtain hfy | hiy := isFinite_or_isInf hy
    · rw [leF64_iff_of_finite hfx hfy, leF64_iff_of_finite hfy hfx]
      exact le_total _ _
    · cases hs : sgn y with
      | false => exact .inl ⟨hx, hy, .inr (.inl ⟨hiy, hs⟩)⟩
      | true => exact .inr ⟨hy, hx, .inl ⟨hiy, hs⟩⟩
  · cases hs : sgn x with
    | false => exact .inr ⟨hy, hx, .inr (.inl ⟨hix, hs⟩)⟩
    | true => exact .inl ⟨hx, hy, .inl ⟨hix, hs⟩⟩

/-! ## Rounding keeps the order (R107) -/

/-- Of two different reals the nearest patterns are in the order of the reals. -/
theorem Nearest.val_le {r r' : ℚ} {p q : F64} (hp : Nearest r p) (hq : Nearest r' q) (h : r < r') : val p ≤ val q := by
  by_contra hlt
  have hpq := hp.2 q hq.1
  have hqp := hq.2 p hp.1
  have hgap := not_le.1 hlt
  rw [← sq_le_sq] at hpq hqp
  nlinarith [mul_pos (sub_pos.2 h) (sub_pos.2 hgap)]

theorem RoundsTo.isNaN {r : ℚ} {p : F64} (h : RoundsTo r p) : isNaN p = false := by
  obtain ⟨-, hfin, -⟩ | ⟨-, rfl⟩ := h.nearest_or_overflow
  · exact isFinite_not_nan hfin
  · exact isNaN_of_isInf (isInf_infF64 _)

/-- Rounding does not decrease, overflow included (R107). -/
theorem RoundsTo.leF64 {r r' : ℚ} {p q : F64} (hp : RoundsTo r p) (hq : RoundsTo r' q) (h : r ≤ r') : LeF64 p q := by
  obtain ⟨hr, hnp⟩ | ⟨hr, hinf⟩ := hp.nearest_or_overflow
  · obtain ⟨-, hnq⟩ | ⟨hr', hinf⟩ := hq.nearest_or_overflow
    · rw [leF64_iff_of_finite hnp.1 hnq.1]
      obtain rfl | hlt := h.eq_or_lt
      · exact (hp.val_eq hq).le
      · exact hnp.val_le hnq hlt
    · have hnonneg : 0 ≤ r' := by
        by_contra hneg
        exact absurd (hr'.trans (abs_le_abs_of_nonpos (not_le.1 hneg).le h)) (not_le.2 hr)
      rw [hinf, decide_eq_false hnonneg.not_gt]
      exact leF64_infF64_false hp.isNaN
  · obtain hneg | hnonneg := lt_or_ge r 0
    · rw [hinf, decide_eq_true hneg]
      exact infF64_true_leF64 hq.isNaN
    · obtain ⟨hr', -⟩ | ⟨-, hinf'⟩ := hq.nearest_or_overflow
      · exact absurd (hr.trans (abs_le_abs_of_nonneg hnonneg h)) (not_le.2 hr')
      · rw [hinf', decide_eq_false (hnonneg.trans h).not_gt]
        exact leF64_infF64_false hp.isNaN

/-- `F` rounds the exact function `g` where its operand is finite, and takes an infinity to the infinity of its sign: what
each of the three steps of the forward function does (R101). -/
structure Rounds (F : F64 → F64) (g : ℚ → ℚ) : Prop where
  finite : ∀ x, isFinite x = true → RoundsTo (g (val x)) (F x)
  inf : ∀ x, isInf x = true → F x = infF64 (sgn x)

theorem Rounds.isNaN {F : F64 → F64} {g : ℚ → ℚ} (hF : Rounds F g) {x : F64} (h : isNaN x = false) :
    isNaN (F x) = false := by
  obtain hfin | hinf := isFinite_or_isInf h
  · exact (hF.finite x hfin).isNaN
  · rw [hF.inf x hinf]
    exact isNaN_of_isInf (isInf_infF64 _)

/-- A rounded non-decreasing function is non-decreasing on the patterns, the infinities included (R107). -/
theorem Rounds.leF64 {F : F64 → F64} {g : ℚ → ℚ} (hF : Rounds F g) (hg : Monotone g) {x y : F64} (h : LeF64 x y) :
    LeF64 (F x) (F y) := by
  obtain ⟨hx, hy, ⟨hinf, hs⟩ | ⟨hinf, hs⟩ | ⟨hfx, hfy, hle⟩⟩ := h
  · rw [hF.inf x hinf, hs]
    exact infF64_true_leF64 (hF.isNaN hy)
  · rw [hF.inf y hinf, hs]
    exact leF64_infF64_false (hF.isNaN hx)
  · exact (hF.finite x hfx).leF64 (hF.finite y hfy) (hg hle)

/-! ## The three steps of the forward function (R101) -/

/-- There is one infinity of each sign (R70). -/
theorem eq_infF64_of_isInf {x : F64} (h : isInf x = true) : x = infF64 (sgn x) := by
  have hexp : expField x = 2047 := by
    by_contra hne
    rw [isFinite_not_inf ((isFinite_iff x).2 hne)] at h
    contradiction
  have hfrac : fracField x = 0 := by
    have hclass := classify_of_isInf h
    rw [classify, if_pos hexp] at hclass
    by_contra hne
    rw [if_neg hne] at hclass
    contradiction
  refine eq_of_fields_eq (sgn_infF64 _).symm ?_ ?_
  · rw [hexp, infF64, expField_packF64]
    rfl
  · rw [hfrac, infF64, fracField_packF64]
    rfl

theorem sgn_of_val_pos {c : F64} (h : 0 < val c) : sgn c = false := by
  by_contra hs
  rw [val, if_pos (Bool.eq_true_of_not_eq_false hs)] at h
  linarith [magnitude_nonneg c]

theorem fsub_rounds {c : F64} (hc : isFinite c = true) : Rounds (fun x => fsub x c) (fun r => r - val c) where
  finite _ hx := fsub_roundsTo hx hc
  inf _ hx := (fadd_of_isInf hx ((isFinite_negF64 c).trans hc)).trans (eq_infF64_of_isInf hx)

theorem fmul_rounds {c : F64} (hc : isFinite c = true) (hpos : 0 < val c) :
    Rounds (fun x => fmul c x) (fun r => val c * r) where
  finite _ hx := fmul_roundsTo hc hx
  inf _ hx := by
    rw [fmul_of_isInf hc (mt (val_eq_zero_iff hc).2 hpos.ne') hx, sgn_of_val_pos hpos, Bool.false_bne]

theorem fdiv_rounds {c : F64} (hc : isFinite c = true) (hpos : 0 < val c) :
    Rounds (fun x => fdiv x c) (fun r => r / val c) where
  finite _ hx := fdiv_roundsTo hx hc hpos.ne'
  inf _ hx := by rw [fdiv_of_isInf hx hc, sgn_of_val_pos hpos, Bool.bne_false]

theorem fsub_leF64 {x y c : F64} (hc : isFinite c = true) (h : LeF64 x y) : LeF64 (fsub x c) (fsub y c) :=
  (fsub_rounds hc).leF64 (fun _ _ hle => sub_le_sub_right hle _) h

theorem fmul_leF64 {x y c : F64} (hc : isFinite c = true) (hpos : 0 < val c) (h : LeF64 x y) :
    LeF64 (fmul c x) (fmul c y) :=
  (fmul_rounds hc hpos).leF64 (fun _ _ hle => mul_le_mul_of_nonneg_left hle hpos.le) h

theorem fdiv_leF64 {x y c : F64} (hc : isFinite c = true) (hpos : 0 < val c) (h : LeF64 x y) :
    LeF64 (fdiv x c) (fdiv y c) :=
  (fdiv_rounds hc hpos).leF64 (fun _ _ hle => div_le_div_of_nonneg_right hle hpos.le) h

theorem val_scale_pos : 0 < val scale := by
  rw [val_scale]
  norm_num

theorem val_latRange_pos : 0 < val latRange := by
  rw [val_latRange]
  norm_num

theorem val_lonRange_pos : 0 < val lonRange := by
  rw [val_lonRange]
  norm_num

/-! ## The normalized value and the index do not decrease (R107) -/

/-- The normalized value of a difference, in the order of R101: multiplied first. -/
def multiplyFirst (range t : F64) : F64 := fdiv (fmul scale t) range

theorem normAxis_eq (v min range : F64) : normAxis v min range = f2u32 (multiplyFirst range (fsub v min)) := rfl

section
variable {min range : F64} (hmin : isFinite min = true) (hrange : isFinite range = true) (hpos : 0 < val range)
include hrange hpos

theorem multiplyFirst_leF64 {t u : F64} (h : LeF64 t u) : LeF64 (multiplyFirst range t) (multiplyFirst range u) :=
  fdiv_leF64 hrange hpos (fmul_leF64 isFinite_scale val_scale_pos h)

include hmin

theorem normAxis_mono {v w : F64} (h : LeF64 v w) : (normAxis v min range).toNat ≤ (normAxis w min range).toNat :=
  f2u32_mono (multiplyFirst_leF64 hrange hpos (fsub_leF64 hmin h))

end

/-- Settles O45: each of the four steps is non-decreasing. -/
theorem indexIsMonotoneInTheCoordinate : Obligations.IndexIsMonotoneInTheCoordinate := fun _ _ h =>
  ⟨normAxis_mono isFinite_minLat isFinite_latRange val_latRange_pos h,
    normAxis_mono isFinite_minLon isFinite_lonRange val_lonRange_pos h⟩

end Sys2Proof.Machine

namespace Sys2Proof.Machine

/-! ## The finite patterns are discrete (R70) -/

/-- A magnitude is below the bottom of the next exponent. -/
theorem magnitude_lt_next_exponent (p : F64) : magnitude p < 2 ^ 52 * pow2 ((expField p : ℤ) - 1074) := by
  have hfrac : (fracField p : ℚ) < 2 ^ 52 := by exact_mod_cast fracField_lt p
  by_cases h0 : expField p = 0
  · rw [magnitude_of_expField_zero h0, h0]
    exact mul_lt_mul_of_pos_right hfrac (pow2_pos _)
  by_cases h1 : expField p = 2047
  · have hzero : magnitude p = 0 := by
      rw [magnitude, classify, if_pos h1]
      split_ifs <;> rfl
    rw [hzero]
    exact mul_pos (by norm_num) (pow2_pos _)
  · have hdouble : (2 : ℚ) * pow2 ((expField p : ℤ) - 1075) = pow2 ((expField p : ℤ) - 1074) :=
      pow_one (2 : ℚ) ▸ two_pow_mul_pow2 (by push_cast; ring)
    rw [magnitude_of_normal h0 h1, ← hdouble, ← mul_assoc]
    push_cast
    exact mul_lt_mul_of_pos_right (by linarith) (pow2_pos _)

theorem magnitude_lt_of_expField_lt {p q : F64} (hq : isFinite q = true) (h : expField p < expField q) :
    magnitude p < magnitude q := by
  have hbottom : ((2 ^ 52 : ℕ) : ℚ) ≤ (2 ^ 52 + fracField q : ℕ) := by exact_mod_cast Nat.le_add_right _ _
  calc magnitude p < 2 ^ 52 * pow2 ((expField p : ℤ) - 1074) := magnitude_lt_next_exponent p
    _ ≤ 2 ^ 52 * pow2 ((expField q : ℤ) - 1075) :=
        mul_le_mul_of_nonneg_left (pow2_le_pow2 (by omega)) (by positivity)
    _ ≤ magnitude q := by
        rw [magnitude_of_normal (by omega) ((isFinite_iff q).1 hq)]
        exact mul_le_mul_of_nonneg_right (by exact_mod_cast hbottom) (pow2_pos _).le

/-- Two finite patterns of one magnitude differ at most in their signs (R70). -/
theorem fields_eq_of_magnitude_eq {p q : F64} (hp : isFinite p = true) (hq : isFinite q = true)
    (h : magnitude p = magnitude q) : expField p = expField q ∧ fracField p = fracField q := by
  have hexp : expField p = expField q := by
    obtain hlt | heq | hgt := lt_trichotomy (expField p) (expField q)
    · exact absurd h (magnitude_lt_of_expField_lt hq hlt).ne
    · exact heq
    · exact absurd h (magnitude_lt_of_expField_lt hp hgt).ne'
  refine ⟨hexp, ?_⟩
  by_cases h0 : expField q = 0
  · rw [magnitude_of_expField_zero h0, magnitude_of_expField_zero (hexp.trans h0)] at h
    exact_mod_cast mul_right_cancel₀ (pow2_ne_zero _) h
  · have h1 := (isFinite_iff q).1 hq
    rw [magnitude_of_normal h0 h1, magnitude_of_normal (hexp ▸ h0) (hexp ▸ h1), hexp] at h
    have hsignificand : 2 ^ 52 + fracField p = 2 ^ 52 + fracField q := by
      exact_mod_cast mul_right_cancel₀ (pow2_ne_zero _) h
    omega

/-- A positive value has one pattern (R70). -/
theorem eq_of_val_eq {p q : F64} (hp : isFinite p = true) (hq : isFinite q = true) (hpos : 0 < val q)
    (h : val p = val q) : p = q := by
  have hsp := sgn_of_val_pos (h ▸ hpos)
  have hsq := sgn_of_val_pos hpos
  rw [val_of_sgn_false hsp, val_of_sgn_false hsq] at h
  obtain ⟨hexp, hfrac⟩ := fields_eq_of_magnitude_eq hp hq h
  exact eq_of_fields_eq (hsp.trans hsq.symm) hexp hfrac

/-- `q` is the positive normal pattern just below `p`, in the same binade: its fraction is one less. -/
@[reducible] def JustBelow (q p : F64) : Prop :=
  (sgn p = false ∧ sgn q = false) ∧ (expField p ≠ 0 ∧ expField p ≠ 2047) ∧ expField q = expField p ∧
    fracField p = fracField q + 1

/-- No finite value lies between a pattern and the one just below it. -/
theorem JustBelow.val_le {p q v : F64} (h : JustBelow q p) (hv : isFinite v = true) (hlt : val v < val p) :
    val v ≤ val q := by
  obtain ⟨⟨hsp, hsq⟩, hnormal, hexp, hfrac⟩ := h
  have hu := pow2_pos ((expField p : ℤ) - 1075)
  have hbinade : (expField p : ℤ) - 1023 - 52 = (expField p : ℤ) - 1075 := by ring
  have hvalq : val q = (2 ^ 52 + fracField q : ℕ) * pow2 ((expField p : ℤ) - 1075) := by
    rw [val_of_sgn_false hsq, magnitude_of_normal (hexp ▸ hnormal.1) (hexp ▸ hnormal.2), hexp]
  rw [val_of_sgn_false hsp, magnitude_of_normal hnormal.1 hnormal.2, hfrac] at hlt
  obtain ⟨z, hz⟩ | ⟨-, hbelow⟩ := val_eq_units_or_lt_binade hv ((expField p : ℤ) - 1023)
  · rw [hbinade] at hz
    rw [hz] at hlt
    have hzlt : (z : ℚ) < ((2 ^ 52 + (fracField q + 1) : ℕ) : ℤ) := by exact_mod_cast lt_of_mul_lt_mul_right hlt hu.le
    have hzle : z ≤ ((2 ^ 52 + fracField q : ℕ) : ℤ) := by
      have hzint := Int.cast_lt.1 hzlt
      push_cast at hzint ⊢
      omega
    rw [hz, hvalq]
    exact mul_le_mul_of_nonneg_right (by exact_mod_cast hzle) hu.le
  · have hbottom : (2 : ℚ) ^ 52 * pow2 ((expField p : ℤ) - 1075) = pow2 ((expField p : ℤ) - 1023) :=
      two_pow_mul_pow2 (by push_cast; ring)
    refine hbelow.le.trans ?_
    rw [hvalq, ← hbottom]
    push_cast
    exact mul_le_mul_of_nonneg_right (by linarith [Nat.cast_nonneg (α := ℚ) (fracField q)]) hu.le

theorem JustBelow.val_le_of_ne {p q v : F64} (h : JustBelow q p) (hp : isFinite p = true) (hpos : 0 < val p)
    (hv : isFinite v = true) (hle : val v ≤ val p) (hne : v ≠ p) : val v ≤ val q :=
  h.val_le hv (hle.lt_of_ne fun heq => hne (eq_of_val_eq hv hp hpos heq))

/-! ## The top of the domain (R104) -/

/-- What R104 rests on of one axis: `below` and `second` are the next two patterns below `max`; the differences of `max` and
of `below` are the range, and that of `second` is `pred`, which is below the range and still has index 2^26 - 1. -/
structure AxisTop (min max range below second pred : F64) : Prop where
  finite_min : isFinite min = true
  finite_max : isFinite max = true
  finite_below : isFinite below = true
  finite_second : isFinite second = true
  finite_range : isFinite range = true
  finite_pred : isFinite pred = true
  pos_below : 0 < val below
  justBelow_max : JustBelow below max
  justBelow_below : JustBelow second below
  val_below_le : val below ≤ val max
  val_pred_lt : val pred < val range
  range_pos : 0 < val range
  range_lt : |val range| < 2 ^ 998
  fsub_max : fsub max min = range
  fsub_below : fsub below min = range
  fsub_second : fsub second min = pred
  multiplyFirst_zero : fmul scale 0#64 = 0#64 ∧ fdiv 0#64 range = 0#64
  multiplyFirst_range : multiplyFirst range range = scale
  multiplyFirst_pred : isFinite (multiplyFirst range pred) = true ∧ val (multiplyFirst range pred) < 2 ^ 26
  index_pred : f2u32 (multiplyFirst range pred) = 0x03FFFFFF#32

theorem latTop : AxisTop minLat maxLat latRange 0x40554345B1A57EFF#64 0x40554345B1A57EFE#64 0x40654345B1A57EFF#64 := by
  constructor <;> decide +kernel

theorem lonTop : AxisTop minLon maxLon lonRange 0x40667FFFFFFFFFFF#64 0x40667FFFFFFFFFFE#64 0x40767FFFFFFFFFFF#64 := by
  constructor <;> decide +kernel

/-- The index of 2^26 itself (R78). -/
theorem f2u32_scale : f2u32 scale = 0x04000000#32 := by decide +kernel

section
variable {min max range below second pred v : F64} (T : AxisTop min max range below second pred)
include T

/-- A pattern with the difference RANGE has the index 2^26 (R104(b), (c)). -/
theorem AxisTop.normAxis_eq_of_fsub (h : fsub v min = range) : normAxis v min range = 0x04000000#32 := by
  rw [normAxis_eq, h, T.multiplyFirst_range, f2u32_scale]

theorem AxisTop.fsub_min : fsub min min = 0#64 := (fsub_self T.finite_min).trans rfl

theorem AxisTop.multiplyFirst_zero_eq : multiplyFirst range 0#64 = 0#64 := by
  rw [multiplyFirst, T.multiplyFirst_zero.1, T.multiplyFirst_zero.2]

theorem AxisTop.normAxis_min : normAxis min min range = 0#32 := by
  rw [normAxis_eq, T.fsub_min, T.multiplyFirst_zero_eq]
  exact f2u32_of_nonpos (by decide) (val_zeroF64 false).le

/-- Every value of the domain has an index of at most that of the top (R104). -/
theorem AxisTop.normAxis_le (hv : isFinite v = true) (hle : val v ≤ val max) : (normAxis v min range).toNat ≤ 2 ^ 26 := by
  have hmono := normAxis_mono T.finite_min T.finite_range T.range_pos ((leF64_iff_of_finite hv T.finite_max).2 hle)
  rwa [T.normAxis_eq_of_fsub T.fsub_max] at hmono

/-- Only the top two patterns of the domain are above `second`. -/
theorem AxisTop.val_le_second (hv : isFinite v = true) (hle : val v ≤ val max) (hmax : v ≠ max) (hbelow : v ≠ below) :
    val v ≤ val second := by
  have hposmax : 0 < val max := T.pos_below.trans_le T.val_below_le
  have hlebelow := T.justBelow_max.val_le_of_ne T.finite_max hposmax hv hle hmax
  exact T.justBelow_below.val_le_of_ne T.finite_below T.pos_below hv hlebelow hbelow

/-- From `min` to `second` the difference lies between 0 and `pred`, so all that follows stays below the top (R104(d)). -/
theorem AxisTop.below_top (hv : isFinite v = true) (hlo : val min ≤ val v) (hhi : val v ≤ val second) :
    val (fsub v min) < val range ∧ val (multiplyFirst range (fsub v min)) < 2 ^ 26 ∧
      (normAxis v min range).toNat ≤ 2 ^ 26 - 1 := by
  have hzero : isFinite 0#64 = true := by decide
  have hsub0 : LeF64 0#64 (fsub v min) :=
    T.fsub_min ▸ fsub_leF64 T.finite_min ((leF64_iff_of_finite T.finite_min hv).2 hlo)
  have hsub : LeF64 (fsub v min) pred :=
    T.fsub_second ▸ fsub_leF64 T.finite_min ((leF64_iff_of_finite hv T.finite_second).2 hhi)
  have hnorm0 : LeF64 0#64 (multiplyFirst range (fsub v min)) :=
    T.multiplyFirst_zero_eq ▸ multiplyFirst_leF64 T.finite_range T.range_pos hsub0
  have hnorm : LeF64 (multiplyFirst range (fsub v min)) (multiplyFirst range pred) :=
    multiplyFirst_leF64 T.finite_range T.range_pos hsub
  have hfsub := hsub0.isFinite_of_between hzero T.finite_pred hsub
  have hfnorm := hnorm0.isFinite_of_between hzero T.multiplyFirst_pred.1 hnorm
  refine ⟨?difference, ?normalized, ?index⟩
  case difference => exact ((leF64_iff_of_finite hfsub T.finite_pred).1 hsub).trans_lt T.val_pred_lt
  case normalized =>
    exact ((leF64_iff_of_finite hfnorm T.multiplyFirst_pred.1).1 hnorm).trans_lt T.multiplyFirst_pred.2
  case index =>
    have hmono := f2u32_mono hnorm
    rwa [T.index_pred] at hmono

theorem AxisTop.inDomainIndices :
    InDomainIndices (fun v => isFinite v = true ∧ val min ≤ val v ∧ val v ≤ val max) min max range below second := by
  refine ⟨fun v ⟨hv, _, hle⟩ => T.normAxis_le hv hle, ?bottom, ?top, ?below, ?others, ?second⟩
  case bottom => exact ⟨T.fsub_min, T.multiplyFirst_zero.1, T.multiplyFirst_zero.2, T.normAxis_min⟩
  case top =>
    exact ⟨T.fsub_max, (fmul_scale_exact T.finite_range T.range_lt).2, T.multiplyFirst_range,
      T.normAxis_eq_of_fsub T.fsub_max⟩
  case below => exact ⟨T.fsub_below, T.normAxis_eq_of_fsub T.fsub_below⟩
  case others => exact fun v ⟨hv, hlo, hle⟩ hmax hbelow => T.below_top hv hlo (T.val_le_second hv hle hmax hbelow)
  case second => rw [normAxis_eq, T.fsub_second, T.index_pred]

end

/-- Settles O43: on each axis the steps keep the order, and the two patterns below the top are computed. -/
theorem inDomainIndicesAreAtMostTwoToThe26 : Obligations.InDomainIndicesAreAtMostTwoToThe26 :=
  ⟨latTop.inDomainIndices, lonTop.inDomainIndices⟩

end Sys2Proof.Machine

namespace Sys2Proof.Machine

/-- A rounding of at most 2^1023 is finite (R71). -/
theorem RoundsTo.isFinite_of_le {r : ℚ} {p : F64} (h : RoundsTo r p) (hr : |r| ≤ pow2 1023) : isFinite p = true := by
  obtain ⟨z, rfl⟩ := h
  split_ifs with h0
  · exact isFinite_zeroF64 z
  · exact (round64_spec (abs_pos.2 h0) hr).1

/-! ## Scaling by a power of two commutes with rounding (R82(d)) -/

section
variable {m : ℚ} (n : ℕ) (hm : pow2 (-1022) ≤ m)
include hm

theorem binade_scale : binade (pow2 n * m) = binade m + n := by
  have hpos : 0 < m := (pow2_pos _).trans_le hm
  have hbottom : pow2 (binade m) ≤ m := by
    by_cases h : binade m = -1022
    · rwa [h]
    · exact pow2_binade_le hpos h
  have hge := binade_ge m
  refine binade_eq (by omega) ?_ ?_
  · rw [add_comm, pow2_add]
    exact mul_le_mul_of_nonneg_left hbottom (pow2_pos _).le
  · rw [show binade m + (n : ℤ) + 1 = n + (binade m + 1) by ring, pow2_add]
    exact mul_lt_mul_of_pos_left (lt_pow2_binade hpos) (pow2_pos _)

/-- The scaled magnitude is rounded to the scaled rounding: the same significand in larger units. -/
theorem magnitude_round64_scale {s s' : Bool} (htop : pow2 n * m ≤ pow2 1023) :
    magnitude (round64 s (pow2 n * m)) = pow2 n * magnitude (round64 s' m) := by
  have hpos : 0 < m := (pow2_pos _).trans_le hm
  have hone : 1 ≤ pow2 n := by
    rw [pow2_natCast]
    exact one_le_pow₀ one_le_two
  have hunit : binade (pow2 n * m) - 52 = n + (binade m - 52) := by
    rw [binade_scale n hm]
    ring
  rw [(round64_spec (mul_pos (pow2_pos _) hpos) htop).2.2.1,
    (round64_spec hpos ((le_mul_of_one_le_left hpos.le hone).trans htop)).2.2.1, hunit, pow2_add,
    mul_div_mul_left _ _ (pow2_ne_zero _)]
  ring

theorem RoundsTo.val_scale {p q : F64} (hp : RoundsTo m p) (hq : RoundsTo (pow2 n * m) q)
    (htop : pow2 n * m ≤ pow2 1023) : val q = pow2 n * val p := by
  have hpos : 0 < m := (pow2_pos _).trans_le hm
  have hpos' : 0 < pow2 n * m := mul_pos (pow2_pos _) hpos
  obtain ⟨-, rfl⟩ := hp
  obtain ⟨-, rfl⟩ := hq
  rw [if_neg hpos.ne', if_neg hpos'.ne', decide_eq_false hpos.not_gt, decide_eq_false hpos'.not_gt, abs_of_pos hpos,
    abs_of_pos hpos', val_of_sgn_false (sgn_round64 _ _), val_of_sgn_false (sgn_round64 _ _)]
  exact magnitude_round64_scale n hm htop

end

/-! ## The other reading of the forward formula (R106) -/

/-- The normalized value of a difference by the other reading: divided first (R106). -/
def divideFirst (range t : F64) : F64 := fmul scale (fdiv t range)

theorem normAxisDivideFirst_eq (v min range : F64) :
    normAxisDivideFirst v min range = f2u32 (divideFirst range (fsub v min)) := rfl

/-- 2^-20, a difference less than a cell on either axis. -/
def smallDifference : F64 := 0x3EB0000000000000#64

/-- 2^100, a difference at which the index saturates on either axis. -/
def largeDifference : F64 := 0x4630000000000000#64

theorem val_smallDifference : val smallDifference = pow2 (-20) := by decide +kernel
theorem val_largeDifference : val largeDifference = pow2 100 := by decide +kernel
theorem isFinite_smallDifference : isFinite smallDifference = true := by decide
theorem isFinite_largeDifference : isFinite largeDifference = true := by decide

/-- What R106 rests on of one axis: its range is of a usual size, and both readings give index 0 at the small difference and
saturate at the large one. -/
structure AxisRange (range : F64) : Prop where
  finite : isFinite range = true
  bounds : pow2 0 ≤ val range ∧ val range ≤ pow2 9
  small : f2u32 (multiplyFirst range smallDifference) = 0x00000000#32 ∧
    f2u32 (divideFirst range smallDifference) = 0x00000000#32
  large : f2u32 (multiplyFirst range largeDifference) = 0xFFFFFFFF#32 ∧
    f2u32 (divideFirst range largeDifference) = 0xFFFFFFFF#32

theorem latRange_axisRange : AxisRange latRange := by constructor <;> decide +kernel
theorem lonRange_axisRange : AxisRange lonRange := by constructor <;> decide +kernel

theorem f2u32_eq_bottom_of_leF64 {x y : F64} (h : LeF64 x y) (hy : f2u32 y = 0x00000000#32) :
    f2u32 x = 0x00000000#32 := by
  have hle := f2u32_mono h
  rw [hy] at hle
  exact BitVec.eq_of_toNat_eq (Nat.le_zero.1 hle)

theorem f2u32_eq_top_of_leF64 {x y : F64} (h : LeF64 x y) (hx : f2u32 x = 0xFFFFFFFF#32) :
    f2u32 y = 0xFFFFFFFF#32 := by
  have hle := f2u32_mono h
  rw [hx] at hle
  exact BitVec.eq_of_toNat_eq (le_antisymm (Nat.le_of_lt_succ (f2u32 y).isLt) hle)

section
variable {range t : F64} (R : AxisRange range)
include R

theorem AxisRange.pos : 0 < val range := (pow2_pos 0).trans_le R.bounds.1

theorem AxisRange.divideFirst_leF64 {u : F64} (h : LeF64 t u) : LeF64 (divideFirst range t) (divideFirst range u) :=
  fmul_leF64 isFinite_scale val_scale_pos (fdiv_leF64 R.finite R.pos h)

theorem AxisRange.quotient_bounds (hlo : pow2 (-20) ≤ val t) (hhi : val t ≤ pow2 100) :
    pow2 (-1022) ≤ val t / val range ∧ val t / val range ≤ pow2 100 := by
  obtain ⟨hone, h9⟩ := R.bounds
  constructor
  · rw [le_div_iff₀ R.pos]
    calc pow2 (-1022) * val range ≤ pow2 (-1022) * pow2 9 := mul_le_mul_of_nonneg_left h9 (pow2_pos _).le
      _ = pow2 (-1013) := by rw [← pow2_add]; norm_num
      _ ≤ val t := (pow2_le_pow2 (by norm_num)).trans hlo
  · rw [pow2_eq_zpow, zpow_zero] at hone
    exact (div_le_self ((pow2_pos _).le.trans hlo) hone).trans hhi

/-- Where the quotient does not overflow, dividing first scales it exactly. -/
theorem AxisRange.divideFirst_exact (ht : isFinite t = true) (h : |val t / val range| ≤ 2 ^ 100) :
    isFinite (divideFirst range t) = true ∧ val (divideFirst range t) = pow2 (26 : ℕ) * val (fdiv t range) := by
  obtain ⟨hquot, hquotVal⟩ := fdiv_bounded ht R.finite R.pos.ne' (by norm_num) h
  rw [pow2_natCast]
  exact fmul_scale_exact hquot (hquotVal.trans_lt (pow_lt_pow_right₀ one_lt_two (by norm_num)))

/-- Where the product does not overflow, multiplying first rounds the scaled quotient once. -/
theorem AxisRange.multiplyFirst_roundsTo (ht : isFinite t = true) (h : |val t| ≤ 2 ^ 100) :
    RoundsTo (pow2 (26 : ℕ) * (val t / val range)) (multiplyFirst range t) := by
  obtain ⟨hprod, hprodVal⟩ := fmul_scale_exact ht (h.trans_lt (pow_lt_pow_right₀ one_lt_two (by norm_num)))
  rw [pow2_natCast, ← mul_div_assoc, ← hprodVal]
  exact fdiv_roundsTo hprod R.finite R.pos.ne'

/-- Between the small and the large difference neither reading overflows and the quotient is normal, so the two normalized
values are one value. -/
theorem AxisRange.readings_agree (ht : isFinite t = true) (hlo : pow2 (-20) ≤ val t) (hhi : val t ≤ pow2 100) :
    f2u32 (divideFirst range t) = f2u32 (multiplyFirst range t) := by
  have htpos : 0 < val t := (pow2_pos _).trans_le hlo
  have h100 : pow2 100 = 2 ^ 100 := pow2_natCast 100
  obtain ⟨hquotLo, hquotHi⟩ := R.quotient_bounds hlo hhi
  have hprodHi : pow2 (26 : ℕ) * (val t / val range) ≤ pow2 126 := by
    calc pow2 (26 : ℕ) * (val t / val range) ≤ pow2 (26 : ℕ) * pow2 100 :=
          mul_le_mul_of_nonneg_left hquotHi (pow2_pos _).le
      _ = pow2 126 := by rw [← pow2_add]; norm_num
  obtain ⟨hfin, hval⟩ := R.divideFirst_exact ht (by rwa [abs_of_pos (div_pos htpos R.pos), ← h100])
  have hround := R.multiplyFirst_roundsTo ht (by rwa [abs_of_pos htpos, ← h100])
  have hagree : val (multiplyFirst range t) = val (divideFirst range t) := by
    rw [hval]
    exact RoundsTo.val_scale 26 hquotLo (fdiv_roundsTo ht R.finite R.pos.ne') hround
      (hprodHi.trans (pow2_le_pow2 (by norm_num)))
  have hfin' : isFinite (multiplyFirst range t) = true :=
    hround.isFinite_of_le (by
      rw [abs_of_pos (mul_pos (pow2_pos _) (div_pos htpos R.pos))]
      exact hprodHi.trans (pow2_le_pow2 (by norm_num)))
  rw [f2u32_finite hfin, f2u32_finite hfin', hagree]

theorem AxisRange.index_eq (t : F64) : f2u32 (divideFirst range t) = f2u32 (multiplyFirst range t) := by
  by_cases hnan : isNaN t = true
  · have hnan' : isNaN nanF64 = true := by decide
    rw [divideFirst, multiplyFirst, fdiv_of_isNaN (.inl hnan), fmul_of_isNaN (.inr hnan), fmul_of_isNaN (.inr hnan'),
      fdiv_of_isNaN (.inl hnan')]
  have hnan := Bool.eq_false_of_not_eq_true hnan
  obtain hsmall | hlo := leF64_total hnan (isFinite_not_nan isFinite_smallDifference)
  · rw [f2u32_eq_bottom_of_leF64 (R.divideFirst_leF64 hsmall) R.small.2,
      f2u32_eq_bottom_of_leF64 (multiplyFirst_leF64 R.finite R.pos hsmall) R.small.1]
  obtain hlarge | hhi := leF64_total (isFinite_not_nan isFinite_largeDifference) hnan
  · rw [f2u32_eq_top_of_leF64 (R.divideFirst_leF64 hlarge) R.large.2,
      f2u32_eq_top_of_leF64 (multiplyFirst_leF64 R.finite R.pos hlarge) R.large.1]
  have ht := hlo.isFinite_of_between isFinite_smallDifference isFinite_largeDifference hhi
  rw [leF64_iff_of_finite isFinite_smallDifference ht, val_smallDifference] at hlo
  rw [leF64_iff_of_finite ht isFinite_largeDifference, val_largeDifference] at hhi
  exact R.readings_agree ht hlo hhi

end

/-- Settles O44: below and above the usual differences both readings give the index of an end of the range, and between
them scaling commutes with rounding. -/
theorem bothReadingsOfTheForwardFormulaAgree : Obligations.BothReadingsOfTheForwardFormulaAgree := fun _ =>
  ⟨latRange_axisRange.index_eq _, lonRange_axisRange.index_eq _⟩

end Sys2Proof.Machine

namespace Sys2Proof.Machine

/-! ## The error of one rounding (R71) -/

/-- An exact result with a significand of at most 53 bits, of either sign, is not rounded (R71). -/
theorem RoundsTo.exact {r : ℚ} {p : F64} (h : RoundsTo r p) {z e : ℤ} (hr : r = z * pow2 e) (hz : |z| < 2 ^ 53)
    (he : -1074 ≤ e ∧ e ≤ 970) : isFinite p = true ∧ val p = r := by
  obtain ⟨s, rfl⟩ := h
  have hunits : |r| = (z.natAbs : ℕ) * pow2 e := by
    rw [hr, abs_mul, abs_of_pos (pow2_pos e), Nat.cast_natAbs, Int.cast_abs]
  rw [Int.abs_eq_natAbs] at hz
  have hk : z.natAbs < 2 ^ 53 := by omega
  have htop : |r| < pow2 1024 := by
    rw [hunits]
    exact (units_mul_pow2_lt hk e).trans_le (pow2_le_pow2 (by omega))
  have hexact := round_exact (s := decide (r < 0)) (z := s) hunits hk he.1 htop
  simpa only [abs_eq_zero, sign_abs_eq] using hexact

/-- The distance of two reals of one sign is that of their magnitudes. -/
theorem abs_val_round64_sub (r : ℚ) : |val (round64 (decide (r < 0)) |r|) - r| =
    |(|r|) - magnitude (round64 (decide (r < 0)) |r|)| := by
  rw [val_eq_sign_magnitude, sgn_round64]
  by_cases h : r < 0
  · rw [decide_eq_true h, if_pos rfl, abs_of_neg h]
    congr 1
    ring
  · rw [decide_eq_false h, if_neg Bool.false_ne_true, abs_of_nonneg (not_lt.1 h), abs_sub_comm]

/-- Below 2^n a rounding is off by at most half a unit of the binade under 2^n (R71). -/
theorem RoundsTo.error {r : ℚ} {p : F64} (h : RoundsTo r p) {n : ℕ} (hr : |r| < 2 ^ n) (hn : n ≤ 1023) :
    isFinite p = true ∧ |val p - r| ≤ 2 ^ n / 2 ^ 54 := by
  have hhalfUnit : (2 : ℚ) ^ n / 2 ^ 54 = pow2 (n - 1 - 53) := by
    rw [div_eq_iff (by norm_num), mul_comm]
    exact ((two_pow_mul_pow2 (by push_cast; ring)).trans (pow2_natCast n)).symm
  rw [hhalfUnit]
  rw [← pow2_natCast] at hr
  have hr1023 : |r| ≤ pow2 1023 := hr.le.trans (pow2_le_pow2 (by omega))
  refine ⟨h.isFinite_of_le hr1023, ?_⟩
  obtain ⟨s, rfl⟩ := h
  split_ifs with h0
  · rw [h0, val_zeroF64, sub_zero, abs_zero]
    exact (pow2_pos _).le
  · have hpos := abs_pos.2 h0
    have hbinade : binade |r| ≤ n - 1 := binade_le_of_lt hpos (by omega) (by rwa [sub_add_cancel])
    rw [abs_val_round64_sub]
    exact (round64_spec hpos hr1023).2.2.2.trans (pow2_le_pow2 (by omega))

/-- A rounding of a real within `δ` of `r` is within `δ` and half a unit of `r`. -/
theorem RoundsTo.error_of_near {r r' δ : ℚ} {p : F64} (h : RoundsTo r' p) (hnear : |r' - r| ≤ δ) {n : ℕ}
    (hr : |r| + δ < 2 ^ n) (hn : n ≤ 1023) : isFinite p = true ∧ |val p - r| ≤ δ + 2 ^ n / 2 ^ 54 := by
  have hr' : |r'| < 2 ^ n := by
    calc |r'| = |r + (r' - r)| := by rw [add_sub_cancel]
      _ ≤ |r| + |r' - r| := abs_add_le _ _
      _ < 2 ^ n := by linarith
  obtain ⟨hfin, herr⟩ := h.error hr' hn
  exact ⟨hfin, by linarith [abs_sub_le (val p) r' r]⟩

/-! ## The roundings of the inverse function (R108) -/

section
variable {min range : F64}

/-- A cell boundary is the rounded sum of MIN and the rounded product: the quotient by 2^26 is exact (R112(b)). -/
theorem cellBoundary_steps {k : ℕ} (hk : k ≤ 2 ^ 32) (hmin : isFinite min = true) (hrange : isFinite range = true) :
    ∃ p, RoundsTo (val range * (k / 2 ^ 26)) p ∧
      (isFinite p = true → RoundsTo (val min + val p) (cellBoundary k min range)) := by
  obtain ⟨hq, hqval⟩ := fdiv_u2f_scale_exact (n := k) (hk.trans_lt (by norm_num))
  exact ⟨_, hqval ▸ fmul_roundsTo hrange hq, fun hp => fadd_roundsTo hmin hp⟩

/-- The decoded coordinate is the rounded half of the rounded sum of the two boundaries. -/
theorem denormAxis_steps {i : U32} (hlow : isFinite (cellBoundary i.toNat min range) = true)
    (hhigh : isFinite (cellBoundary (i.toNat + 1) min range) = true) :
    ∃ s, RoundsTo (val (cellBoundary i.toNat min range) + val (cellBoundary (i.toNat + 1) min range)) s ∧
      (isFinite s = true → RoundsTo (val s / 2) (denormAxis i min range)) := by
  refine ⟨_, fadd_roundsTo hlow hhigh, fun hs => ?_⟩
  rw [← val_two]
  exact fdiv_roundsTo hs isFinite_two (by rw [val_two]; exact two_ne_zero)

end

/-! ## The decoded longitude is exact (R112(c)) -/

theorem pow2_neg_26 : pow2 (-26) = 1 / 2 ^ 26 := by
  rw [pow2_eq_zpow]
  norm_num

theorem pow2_neg_27 : pow2 (-27) = 1 / 2 ^ 27 := by
  rw [pow2_eq_zpow]
  norm_num

/-- 360 k and 360 k - 180 · 2^26 have at most 53 bits. -/
theorem cellBoundary_lon {k : ℕ} (hk : k ≤ 2 ^ 32) :
    isFinite (cellBoundary k minLon lonRange) = true ∧
      val (cellBoundary k minLon lonRange) = -180 + 360 * (k / 2 ^ 26) := by
  obtain ⟨p, hp, hsum⟩ := cellBoundary_steps hk isFinite_minLon isFinite_lonRange
  rw [val_lonRange] at hp
  obtain ⟨hpfin, hpval⟩ := hp.exact (z := 360 * k) (e := -26) (by rw [pow2_neg_26]; push_cast; ring)
    (by rw [Int.abs_eq_natAbs]; omega) (by norm_num)
  have hsum := hsum hpfin
  rw [val_minLon, hpval] at hsum
  exact hsum.exact (z := 360 * k - 180 * 2 ^ 26) (e := -26) (by rw [pow2_neg_26]; push_cast; ring)
    (by rw [Int.abs_eq_natAbs]; omega) (by norm_num)

theorem denormLon_exact (i : U32) :
    isFinite (denormLon i) = true ∧ val (denormLon i) = -180 + 360 * (2 * (i.toNat : ℚ) + 1) / 2 ^ 27 := by
  have hi := i.isLt
  obtain ⟨hlow, hlowval⟩ := cellBoundary_lon (k := i.toNat) (by omega)
  obtain ⟨hhigh, hhighval⟩ := cellBoundary_lon (k := i.toNat + 1) (by omega)
  obtain ⟨s, hs, hhalf⟩ := denormAxis_steps hlow hhigh
  rw [hlowval, hhighval] at hs
  obtain ⟨hsfin, hsval⟩ := hs.exact (z := 360 * (2 * i.toNat + 1 - 2 ^ 26)) (e := -26)
    (by rw [pow2_neg_26]; push_cast; ring) (by rw [Int.abs_eq_natAbs]; omega) (by norm_num)
  have hhalf := hhalf hsfin
  rw [hsval] at hhalf
  obtain ⟨hfin, hval⟩ := hhalf.exact (z := 360 * (2 * i.toNat + 1 - 2 ^ 26)) (e := -27)
    (by rw [pow2_neg_27]; push_cast; ring) (by rw [Int.abs_eq_natAbs]; omega) (by norm_num)
  refine ⟨hfin, hval.trans ?_⟩
  push_cast
  ring

/-- Settles O48: every intermediate is a whole number of units of 2^-26 that needs no rounding. -/
theorem decodedLongitudeIsExact : Obligations.DecodedLongitudeIsExact := fun i => (denormLon_exact i).2

/-! ## The decoded latitude is near the centre of its cell (R112(d)) -/

/-- The exact lower boundary of the latitude cell `k`. -/
def latBoundary (k : ℕ) : ℚ := val minLat + val latRange * (k / 2 ^ 26)

/-- The multiple of the range and the boundary itself are below 2^14. -/
theorem latBoundary_bounds {k : ℕ} (hk : k ≤ 2 ^ 32) :
    |val latRange * (k / 2 ^ 26)| < 2 ^ 14 ∧ |latBoundary k| < 2 ^ 14 - 1 := by
  have hkq : (k : ℚ) ≤ 2 ^ 32 := by exact_mod_cast hk
  have hq0 : (0 : ℚ) ≤ k / 2 ^ 26 := by positivity
  have hq64 : (k : ℚ) / 2 ^ 26 ≤ 64 := by
    rw [div_le_iff₀ (by norm_num)]
    exact hkq.trans (by norm_num)
  rw [latBoundary, val_latRange, val_minLat, val_maxLat, abs_lt, abs_lt]
  refine ⟨⟨?_, ?_⟩, ?_, ?_⟩ <;> linarith

/-- Two roundings below 2^14. -/
theorem cellBoundary_lat {k : ℕ} (hk : k ≤ 2 ^ 32) :
    isFinite (cellBoundary k minLat latRange) = true ∧
      |val (cellBoundary k minLat latRange) - latBoundary k| ≤ 2 / 2 ^ 40 := by
  obtain ⟨hproduct, hboundary⟩ := latBoundary_bounds hk
  obtain ⟨p, hp, hsum⟩ := cellBoundary_steps hk isFinite_minLat isFinite_latRange
  obtain ⟨hpfin, hperr⟩ := hp.error hproduct (by norm_num)
  have hnear : |val minLat + val p - latBoundary k| ≤ 1 / 2 ^ 40 := by
    rw [latBoundary, add_sub_add_left_eq_sub]
    exact hperr.trans_eq (by norm_num)
  obtain ⟨hfin, herr⟩ := (hsum hpfin).error_of_near hnear (n := 14) (by linarith) (by norm_num)
  exact ⟨hfin, herr.trans_eq (by norm_num)⟩

/-- The exact centre of cell `i` of an axis whose domain is symmetric around 0 (R112). -/
def cellCentre (range : ℚ) (i : U32) : ℚ := range * ((2 * i.toNat + 1 - 2 ^ 26) / 2 ^ 27)

theorem cellCentre_lat (i : U32) :
    cellCentre (val latRange) i = val minLat + val latRange * (2 * (i.toNat : ℚ) + 1) / 2 ^ 27 := by
  rw [cellCentre, val_minLat, val_latRange_eq_two_mul]
  ring

theorem cellCentre_lon (i : U32) : cellCentre 360 i = -180 + 360 * (2 * (i.toNat : ℚ) + 1) / 2 ^ 27 := by
  rw [cellCentre]
  ring

theorem latBoundary_add_latBoundary (i : U32) :
    latBoundary i.toNat + latBoundary (i.toNat + 1) = 2 * cellCentre (val latRange) i := by
  rw [cellCentre_lat, latBoundary, latBoundary]
  push_cast
  ring

/-- Two roundings for each boundary, one for their sum and one for the half: less than 2^-38 together. -/
theorem denormLat_near (i : U32) :
    isFinite (denormLat i) = true ∧ |val (denormLat i) - cellCentre (val latRange) i| ≤ 1 / 2 ^ 38 := by
  have hi := i.isLt
  have hcentre := latBoundary_add_latBoundary i
  obtain ⟨hlow, hlowerr⟩ := cellBoundary_lat (k := i.toNat) (by omega)
  obtain ⟨hhigh, hhigherr⟩ := cellBoundary_lat (k := i.toNat + 1) (by omega)
  obtain ⟨-, hlowlt⟩ := latBoundary_bounds (k := i.toNat) (by omega)
  obtain ⟨-, hhighlt⟩ := latBoundary_bounds (k := i.toNat + 1) (by omega)
  obtain ⟨s, hs, hhalf⟩ := denormAxis_steps hlow hhigh
  have hcentrelt : |2 * cellCentre (val latRange) i| < 2 ^ 15 - 2 := by
    rw [← hcentre]
    exact (abs_add_le _ _).trans_lt (by linarith)
  have hsum : |val (cellBoundary i.toNat minLat latRange) + val (cellBoundary (i.toNat + 1) minLat latRange) -
      2 * cellCentre (val latRange) i| ≤ 4 / 2 ^ 40 := by
    rw [← hcentre, add_sub_add_comm]
    exact (abs_add_le _ _).trans (by linarith)
  obtain ⟨hsfin, hserr⟩ := hs.error_of_near hsum (n := 15) (by linarith) (by norm_num)
  have hhalfnear : |val s / 2 - cellCentre (val latRange) i| ≤ 3 / 2 ^ 40 := by
    rw [abs_le] at hserr ⊢
    constructor <;> linarith
  rw [abs_mul, abs_two] at hcentrelt
  obtain ⟨hfin, herr⟩ := (hhalf hsfin).error_of_near hhalfnear (n := 14) (by linarith) (by norm_num)
  exact ⟨hfin, herr.trans (by norm_num)⟩

theorem denormLon_near (i : U32) :
    isFinite (denormLon i) = true ∧ |val (denormLon i) - cellCentre 360 i| ≤ 1 / 2 ^ 38 := by
  obtain ⟨hfin, hval⟩ := denormLon_exact i
  rw [hval, cellCentre_lon, sub_self, abs_zero]
  exact ⟨hfin, by norm_num⟩

/-- Settles O52: the bound of 2^-38 from the roundings, on the centre written as in R112(d). -/
theorem decodedLatitudeIsNearTheCellCentre : Obligations.DecodedLatitudeIsNearTheCellCentre := by
  intro i
  rw [← cellCentre_lat]
  exact (denormLat_near i).2.trans (by norm_num)

/-! ## Centres are a cell apart and no centre is 0 (R112(a), (e)) -/

section
variable {range x : ℚ}

/-- A larger index is a centre at least a cell, here 2^-19, farther. -/
theorem cellCentre_add_le {i j : U32} (h128 : 128 ≤ range) (h : i.toNat < j.toNat) :
    cellCentre range i + 1 / 2 ^ 19 ≤ cellCentre range j := by
  have hij : ((i.toNat : ℚ)) + 1 ≤ j.toNat := by exact_mod_cast h
  have hgap : cellCentre range j - cellCentre range i = range * ((j.toNat - i.toNat) / 2 ^ 26) := by
    rw [cellCentre, cellCentre]
    ring
  have hcell : 128 * (1 / 2 ^ 26) ≤ range * (((j.toNat : ℚ) - i.toNat) / 2 ^ 26) :=
    mul_le_mul h128 (div_le_div_of_nonneg_right (by linarith) (by norm_num)) (by norm_num) (by linarith)
  linarith

/-- What is near the centres increases with the index. -/
theorem lt_of_near_cellCentre {i j : U32} {y : ℚ} (h128 : 128 ≤ range) (hx : |x - cellCentre range i| ≤ 1 / 2 ^ 38)
    (hy : |y - cellCentre range j| ≤ 1 / 2 ^ 38) (h : i.toNat < j.toNat) : x < y := by
  have hgap := cellCentre_add_le h128 h
  rw [abs_le] at hx hy
  linarith

/-- The odd multiple of half a cell is at least half a cell and below 2^15 away from 0. -/
theorem cellCentre_bounds (i : U32) (h128 : 128 ≤ range) (h512 : range ≤ 512) :
    1 / 2 ^ 20 ≤ |cellCentre range i| ∧ |cellCentre range i| ≤ 2 ^ 15 := by
  have hi := i.isLt
  have hodd : (1 : ℤ) ≤ |2 * (i.toNat : ℤ) + 1 - 2 ^ 26| ∧ |2 * (i.toNat : ℤ) + 1 - 2 ^ 26| ≤ 2 ^ 33 := by
    rw [Int.abs_eq_natAbs]
    omega
  have hoddq : (1 : ℚ) ≤ |2 * (i.toNat : ℚ) + 1 - 2 ^ 26| ∧ |2 * (i.toNat : ℚ) + 1 - 2 ^ 26| ≤ 2 ^ 33 := by
    exact_mod_cast hodd
  obtain ⟨hlo, hhi⟩ := hoddq
  rw [cellCentre, abs_mul, abs_div, abs_of_pos (by linarith : 0 < range), abs_of_pos (by norm_num : (0 : ℚ) < 2 ^ 27)]
  constructor
  · calc (1 : ℚ) / 2 ^ 20 = 128 * (1 / 2 ^ 27) := by norm_num
      _ ≤ _ := mul_le_mul h128 (div_le_div_of_nonneg_right hlo (by norm_num)) (by norm_num) (by linarith)
  · calc _ ≤ 512 * ((2 : ℚ) ^ 33 / 2 ^ 27) :=
          mul_le_mul h512 (div_le_div_of_nonneg_right hhi (by norm_num)) (by positivity) (by norm_num)
      _ = 2 ^ 15 := by norm_num

/-- What is near a centre is below 2^16 and not near 0. -/
theorem bounds_of_near_cellCentre {i : U32} (h128 : 128 ≤ range) (h512 : range ≤ 512)
    (hx : |x - cellCentre range i| ≤ 1 / 2 ^ 38) : 1 / 2 ^ 21 ≤ |x| ∧ |x| < 2 ^ 16 := by
  obtain ⟨hlo, hhi⟩ := cellCentre_bounds i h128 h512
  have hdist := (abs_le.1 ((abs_abs_sub_abs_le x (cellCentre range i)).trans hx))
  constructor <;> linarith

end

/-- A value of at least 2^-21 is not a subnormal one (R70). -/
theorem classify_ne_subnormal {p : F64} (h : 1 / 2 ^ 21 ≤ |val p|) : classify p ≠ .subnormal := by
  intro hsub
  have hsmall := (abs_val_lt_of_subnormal_or_zero (.inl hsub)).2
  have hle : pow2 (-1022) ≤ pow2 (-21) := pow2_le_pow2 (by norm_num)
  rw [show pow2 (-21) = 1 / 2 ^ 21 by rw [pow2_eq_zpow]; norm_num] at hle
  linarith

theorem val_latRange_bounds : 128 ≤ val latRange ∧ val latRange ≤ 512 := by
  rw [val_latRange]
  norm_num

/-- Settles O51: the centres are a cell apart, more than the two errors. -/
theorem decodedCoordinatesIncreaseWithTheIndex : Obligations.DecodedCoordinatesIncreaseWithTheIndex := fun i j h =>
  ⟨lt_of_near_cellCentre val_latRange_bounds.1 (denormLat_near i).2 (denormLat_near j).2 h,
    lt_of_near_cellCentre (by norm_num) (denormLon_near i).2 (denormLon_near j).2 h⟩

/-- Settles O49: a centre is at least half a cell away from 0, so what is near it is no subnormal. -/
theorem decodedCoordinatesAreFinite : Obligations.DecodedCoordinatesAreFinite := by
  intro i
  obtain ⟨hlat, hlaterr⟩ := denormLat_near i
  obtain ⟨hlon, hlonerr⟩ := denormLon_near i
  obtain ⟨hlatlo, hlathi⟩ := bounds_of_near_cellCentre val_latRange_bounds.1 val_latRange_bounds.2 hlaterr
  obtain ⟨hlonlo, hlonhi⟩ := bounds_of_near_cellCentre (by norm_num) (by norm_num) hlonerr
  exact ⟨hlat, hlon, hlathi, hlonhi, classify_ne_subnormal hlatlo, classify_ne_subnormal hlonlo⟩

end Sys2Proof.Machine

namespace Sys2Proof.Machine

/-! ## NORM and DENORM complete (R102, R109) -/

/-- The delay line's part of the frame: dropping the oldest slot keeps as many slots as there were (R182). -/
theorem State.accept_pipe_eq_take (s : State) (r : Response) :
    (s.accept r).pipe = ((⟨true, r⟩ : Slot) :: s.pipe).take s.pipe.length := by
  rw [State.accept_pipe, List.dropLast_eq_take, List.length_cons, Nat.add_sub_cancel]

/-- The edge that accepts a request has the whole frame of `Accepts`: what is delivered is the oldest slot's response where
that is valid, and with LATENCY = 0 the accepted one (R182). -/
theorem State.accepts_accept (s : State) (r : Response) : Accepts s r (s.accept r) := by
  refine ⟨s.accept_pipe_eq_take r, ?delivered, ?script, rfl⟩
  case delivered =>
    rw [State.accept_delivered, State.outgoing, List.getLastD_eq_getLast?, logDelivery]
    cases s.pipe.getLast? with
    | none => rfl
    | some slot => cases h : slot.v <;> simp [h]
  case script => cases h : s.upcoming <;> simp [State.script, h]

/-- Every operation completes from every state, with the response of the untimed machine and the frame of `Accepts`
(R48, R182). -/
theorem exec_completes (i : Instr) (s : State) : ∃ t, exec i s = .next t ∧ Accepts s (respond i) t :=
  ⟨s.accept (respond i), exec_eq_accept i s, s.accepts_accept (respond i)⟩

/-- Settles O17: the indices of NORM are by definition the formula of R101, zero-extended. -/
theorem normAnswersBothIndices : Obligations.NormAnswersBothIndices := by
  intro a b s
  obtain ⟨t, hexec, haccepts⟩ := exec_completes (.norm a b) s
  exact ⟨_, t, hexec, haccepts, rfl, rfl⟩

/-- The index on a port is its low 32 wires (R50). -/
theorem operandIndex_toNat (a : U64) : (operandIndex a).toNat = a.toNat % 2 ^ 32 := BitVec.toNat_setWidth 32 a

theorem denormAxis_eq (i : U32) (min range : F64) : denormAxis i min range =
    fdiv (fadd (fadd min (fmul range (fdiv (u2f i.toNat) scale)))
      (fadd min (fmul range (fdiv (u2f (i.toNat + 1)) scale)))) two := rfl

/-- Settles O18: the coordinates of DENORM are by definition those of R108, for the low 32 wires of each port. -/
theorem denormAnswersBothCellCentres : Obligations.DenormAnswersBothCellCentres := by
  intro a b s
  obtain ⟨t, hexec, haccepts⟩ := exec_completes (.denorm a b) s
  refine ⟨_, t, hexec, haccepts, ?_, ?_⟩
  · rw [respond_denorm, denormLat, denormAxis_eq, operandIndex_toNat]
  · rw [respond_denorm, denormLon, denormAxis_eq, operandIndex_toNat]

end Sys2Proof.Machine

/-! # Proofs: the bit interleaver (42_bit_interleaver.md) -/

namespace Sys2Proof.Machine

/-! ## The even and the odd bits of each function (R120, R123, R125) -/

section
variable (v x y : U32) (c : U64) (i : Nat)

@[simp] theorem spread_getLsbD_even : (spread v).getLsbD (2 * i) = v.getLsbD i := by
  simp [spread_getLsbD]

@[simp] theorem spread_getLsbD_odd : (spread v).getLsbD (2 * i + 1) = false := by
  simp [spread_getLsbD]

theorem compact_getLsbD_of_lt {i : Nat} (hi : i < 32) : (compact c).getLsbD i = c.getLsbD (2 * i) := by
  rw [compact_getLsbD, decide_eq_true hi, Bool.true_and]

/-- The odd positions are what `deinterleave` compacts for its second index (R128). -/
theorem compact_ushiftRight_getLsbD_of_lt {i : Nat} (hi : i < 32) :
    (compact (c >>> 1)).getLsbD i = c.getLsbD (2 * i + 1) := by
  rw [compact_getLsbD_of_lt _ hi, BitVec.getLsbD_ushiftRight, Nat.add_comm]

@[simp] theorem spread_shiftLeft_one_getLsbD_even : (spread v <<< 1).getLsbD (2 * i) = false := by
  cases i with
  | zero => simp
  | succ i =>
    have hodd : 2 * (i + 1) - 1 = 2 * i + 1 := by omega
    rw [BitVec.getLsbD_shiftLeft, hodd, spread_getLsbD_odd, Bool.and_false]

@[simp] theorem spread_shiftLeft_one_getLsbD_odd : (spread v <<< 1).getLsbD (2 * i + 1) = v.getLsbD i := by
  by_cases hi : i < 32
  · have hj : 2 * i + 1 < 64 := by omega
    simp only [BitVec.getLsbD_shiftLeft, hj, Nat.add_sub_cancel, spread_getLsbD_even, Nat.not_lt.2 (Nat.le_add_left 1 _),
      decide_true, decide_false, Bool.not_false, Bool.true_and]
  · rw [BitVec.getLsbD_of_ge _ _ (by omega), BitVec.getLsbD_of_ge _ _ (by omega)]

@[simp] theorem interleave_getLsbD_even : (interleave x y).getLsbD (2 * i) = x.getLsbD i := by
  rw [interleave, BitVec.getLsbD_or, spread_getLsbD_even, spread_shiftLeft_one_getLsbD_even, Bool.or_false]

@[simp] theorem interleave_getLsbD_odd : (interleave x y).getLsbD (2 * i + 1) = y.getLsbD i := by
  rw [interleave, BitVec.getLsbD_or, spread_getLsbD_odd, spread_shiftLeft_one_getLsbD_odd, Bool.false_or]

end

/-- A 64-bit word is given by its even and its odd bits. -/
theorem eq_of_getLsbD_even_odd {c d : U64}
    (h : ∀ i < 32, c.getLsbD (2 * i) = d.getLsbD (2 * i) ∧ c.getLsbD (2 * i + 1) = d.getLsbD (2 * i + 1)) : c = d := by
  apply BitVec.eq_of_getLsbD_eq
  intro j hj
  obtain ⟨i, rfl | rfl⟩ := j.even_or_odd'
  · exact (h i (by omega)).1
  · exact (h i (by omega)).2

/-- Settles O30: the even and the odd bits of `spread`. -/
theorem spreadMovesBitsToEvenPositions : Obligations.SpreadMovesBitsToEvenPositions :=
  fun v i _ => ⟨spread_getLsbD_even v i, spread_getLsbD_odd v i⟩

/-- Settles O32: below bit 32 the definition reads every even position. -/
theorem compactMovesEvenBitsDown : Obligations.CompactMovesEvenBitsDown :=
  fun c _ hi => compact_getLsbD_of_lt c hi

/-! ## The networks: between `spread` and the plain word, one halving or doubling of the blocks at a time (R121, R126) -/

/-- `r` holds `n` blocks of `k` bits of `v`, each with a gap of `k` zeros above it. -/
def InBlocks (n k : Nat) (v : U32) (r : U64) : Prop :=
  ∀ q < n, ∀ m < k,
    r.getLsbD (2 * (k * q) + m) = v.getLsbD (k * q + m) ∧ r.getLsbD (2 * (k * q) + k + m) = false

/-- One block of 32 bits is the zero-extended word. -/
theorem inBlocks_one_iff {v : U32} {r : U64} : InBlocks 1 32 v r ↔ r = v.setWidth 64 := by
  constructor
  · intro h
    apply BitVec.eq_of_getLsbD_eq
    intro j hj
    rw [BitVec.getLsbD_setWidth, decide_eq_true hj, Bool.true_and]
    by_cases hlow : j < 32
    · simpa using (h 0 one_pos j hlow).1
    · have hgap := (h 0 one_pos (j - 32) (by omega)).2
      rw [BitVec.getLsbD_of_ge v j (by omega), ← hgap]
      congr 1
      omega
  · rintro rfl q hq m hm
    obtain rfl : q = 0 := by omega
    have hm64 : m < 64 := by omega
    simp [hm64]

/-- 32 blocks of one bit are the spread word. -/
theorem inBlocks_thirtyTwo_iff {v : U32} {r : U64} : InBlocks 32 1 v r ↔ r = spread v := by
  constructor
  · intro h
    apply eq_of_getLsbD_even_odd
    intro i hi
    obtain ⟨heven, hodd⟩ := h i hi 0 one_pos
    rw [spread_getLsbD_even, spread_getLsbD_odd]
    exact ⟨by simpa using heven, by simpa using hodd⟩
  · rintro rfl q hq m hm
    obtain rfl : m = 0 := by omega
    simp

section
variable {n k : Nat} {v : U32} {r mask : U64}

/-- The blocks of a 32-bit word lie within it. -/
theorem block_bit_lt (hnk : k * n = 32) {q m : Nat} (hq : q < n) (hm : m < k) : k * q + m < 32 := by
  have hle : k * (q + 1) ≤ k * n := Nat.mul_le_mul_left k hq
  rw [Nat.mul_succ] at hle
  omega

/-- A mask of ones in blocks clears what a stage leaves in the gaps. -/
theorem InBlocks.and_mask (hnk : k * n = 32) (hmask : InBlocks n k (BitVec.allOnes 32) mask)
    (h : ∀ q < n, ∀ m < k, r.getLsbD (2 * (k * q) + m) = v.getLsbD (k * q + m)) : InBlocks n k v (r &&& mask) := by
  intro q hq m hm
  obtain ⟨hones, hgap⟩ := hmask q hq m hm
  rw [BitVec.getLsbD_allOnes, decide_eq_true (block_bit_lt hnk hq hm)] at hones
  rw [BitVec.getLsbD_and, BitVec.getLsbD_and, h q hq m hm, hones, hgap]
  exact ⟨Bool.and_true _, Bool.and_false _⟩

/-- Seen in blocks of twice the width, an even block is a lower half. -/
theorem even_block_start (k p : Nat) : k * (2 * p) = 2 * k * p := by ring

/-- Seen in blocks of twice the width, an odd block is an upper half. -/
theorem odd_block_start (k p : Nat) : k * (2 * p + 1) = 2 * k * p + k := by ring

/-- A stage of R121 cuts each block in two: the lower half stays, the upper one moves up into the gap. -/
theorem InBlocks.spreadStage (h : InBlocks n (2 * k) v r) (hnk : k * (2 * n) = 32)
    (hmask : InBlocks (2 * n) k (BitVec.allOnes 32) mask) : InBlocks (2 * n) k v (spreadStage k mask r) := by
  refine .and_mask hnk hmask fun q hq m hm => ?_
  have hj : 2 * (k * q) + m < 64 := by have := block_bit_lt hnk hq hm; omega
  rw [BitVec.getLsbD_or, BitVec.getLsbD_shiftLeft, decide_eq_true hj, Bool.true_and]
  obtain ⟨p, rfl | rfl⟩ := q.even_or_odd'
  · rw [even_block_start, (h p (by omega) m (by omega)).1]
    have hgap : (!decide (2 * (2 * k * p) + m < k) && r.getLsbD (2 * (2 * k * p) + m - k)) = false := by
      cases p with
      | zero => simp [hm]
      | succ p =>
        have hbelow : 2 * (2 * k * (p + 1)) + m - k = 2 * (2 * k * p) + 2 * k + (k + m) := by
          rw [Nat.mul_succ]; omega
        rw [hbelow, (h p (by omega) (k + m) (by omega)).2, Bool.and_false]
    rw [hgap, Bool.or_false]
  · have hup : 2 * (2 * k * p + k) + m = 2 * (2 * k * p) + 2 * k + m := by omega
    have hdown : 2 * (2 * k * p + k) + m - k = 2 * (2 * k * p) + (k + m) := by omega
    have hge : ¬ 2 * (2 * k * p + k) + m < k := by omega
    rw [odd_block_start, decide_eq_false hge, hdown, hup, (h p (by omega) m (by omega)).2,
      (h p (by omega) (k + m) (by omega)).1, Nat.add_assoc]
    simp only [Bool.not_false, Bool.true_and, Bool.false_or]

/-- A stage of R126 joins two blocks: the upper one moves down into the gap above the lower one. -/
theorem InBlocks.compactStage (h : InBlocks (2 * n) k v r) (hnk : 2 * k * n = 32)
    (hmask : InBlocks n (2 * k) (BitVec.allOnes 32) mask) : InBlocks n (2 * k) v (compactStage k mask r) := by
  refine .and_mask hnk hmask fun p hp m hm => ?_
  rw [BitVec.getLsbD_or, BitVec.getLsbD_ushiftRight]
  by_cases hlow : m < k
  · obtain ⟨hblock, hgap⟩ := h (2 * p) (by omega) m hlow
    rw [even_block_start] at hblock hgap
    have hup : k + (2 * (2 * k * p) + m) = 2 * (2 * k * p) + k + m := by omega
    rw [hup, hblock, hgap, Bool.or_false]
  · obtain ⟨i, rfl⟩ := Nat.exists_eq_add_of_le (Nat.le_of_not_lt hlow)
    have hgap := (h (2 * p) (by omega) i (by omega)).2
    have hblock := (h (2 * p + 1) (by omega) i (by omega)).1
    rw [even_block_start] at hgap
    rw [odd_block_start] at hblock
    have hup : k + (2 * (2 * k * p) + (k + i)) = 2 * (2 * k * p + k) + i := by omega
    rw [hup, hblock, ← Nat.add_assoc, hgap, Bool.false_or, Nat.add_assoc]

end

/-! ## The masks of R121 and R126: `mask_blocks_k` has ones in blocks of `k` bits -/

theorem mask_blocks_1 : InBlocks 32 1 (BitVec.allOnes 32) 0x5555555555555555#64 := by unfold InBlocks; decide
theorem mask_blocks_2 : InBlocks 16 2 (BitVec.allOnes 32) 0x3333333333333333#64 := by unfold InBlocks; decide
theorem mask_blocks_4 : InBlocks 8 4 (BitVec.allOnes 32) 0x0F0F0F0F0F0F0F0F#64 := by unfold InBlocks; decide
theorem mask_blocks_8 : InBlocks 4 8 (BitVec.allOnes 32) 0x00FF00FF00FF00FF#64 := by unfold InBlocks; decide
theorem mask_blocks_16 : InBlocks 2 16 (BitVec.allOnes 32) 0x0000FFFF0000FFFF#64 := by unfold InBlocks; decide
theorem mask_blocks_32 : InBlocks 1 32 (BitVec.allOnes 32) 0x00000000FFFFFFFF#64 := by unfold InBlocks; decide

/-- The even bits of a word, where they stand, are its spread compact index (R130(c)). -/
theorem and_mask_eq_spread_compact (c : U64) : c &&& 0x5555555555555555#64 = spread (compact c) := by
  refine inBlocks_thirtyTwo_iff.1 (.and_mask rfl mask_blocks_1 fun q hq m hm => ?_)
  obtain rfl : m = 0 := by omega
  rw [Nat.one_mul, Nat.add_zero, Nat.add_zero, compact_getLsbD_of_lt _ hq]

/-- Settles O31: the zero-extended word is one block, which the five stages cut down to single bits. -/
theorem spreadNetworkComputesSpread : Obligations.SpreadNetworkComputesSpread := by
  intro v
  have h32 : InBlocks 1 32 v (v.setWidth 64) := inBlocks_one_iff.2 rfl
  have h16 := h32.spreadStage (n := 1) (k := 16) rfl mask_blocks_16
  have h8 := h16.spreadStage (n := 2) (k := 8) rfl mask_blocks_8
  have h4 := h8.spreadStage (n := 4) (k := 4) rfl mask_blocks_4
  have h2 := h4.spreadStage (n := 8) (k := 2) rfl mask_blocks_2
  exact inBlocks_thirtyTwo_iff.1 (h2.spreadStage (n := 16) (k := 1) rfl mask_blocks_1)

/-- Settles O33: the mask leaves the spread index, and the five stages join its bits to one block. -/
theorem compactNetworkComputesCompact : Obligations.CompactNetworkComputesCompact := by
  intro c
  have h1 : InBlocks 32 1 (compact c) _ := inBlocks_thirtyTwo_iff.2 (and_mask_eq_spread_compact c)
  have h2 := h1.compactStage (n := 16) (k := 1) rfl mask_blocks_2
  have h4 := h2.compactStage (n := 8) (k := 2) rfl mask_blocks_4
  have h8 := h4.compactStage (n := 4) (k := 4) rfl mask_blocks_8
  have h16 := h8.compactStage (n := 2) (k := 8) rfl mask_blocks_16
  have h32 := inBlocks_one_iff.1 (h16.compactStage (n := 1) (k := 16) rfl mask_blocks_32)
  exact (congrArg (BitVec.setWidth 32) h32).trans (BitVec.setWidth_setWidth_of_le _ (by decide))

/-! ## Inverses and the codes of small indices (R130, R131) -/

theorem compact_interleave (x y : U32) : compact (interleave x y) = x := by
  apply BitVec.eq_of_getLsbD_eq
  intro i hi
  rw [compact_getLsbD_of_lt _ hi, interleave_getLsbD_even]

theorem compact_interleave_ushiftRight (x y : U32) : compact (interleave x y >>> 1) = y := by
  apply BitVec.eq_of_getLsbD_eq
  intro i hi
  rw [compact_ushiftRight_getLsbD_of_lt _ hi, interleave_getLsbD_odd]

theorem compact_spread (v : U32) : compact (spread v) = v := by
  apply BitVec.eq_of_getLsbD_eq
  intro i hi
  rw [compact_getLsbD_of_lt _ hi, spread_getLsbD_even]

theorem interleave_compact (c : U64) : interleave (compact c) (compact (c >>> 1)) = c := by
  apply eq_of_getLsbD_even_odd
  intro i hi
  rw [interleave_getLsbD_even, interleave_getLsbD_odd, compact_getLsbD_of_lt _ hi,
    compact_ushiftRight_getLsbD_of_lt _ hi]
  exact ⟨rfl, rfl⟩

/-- Settles O34: the last two clauses are the inverse of R128 read on pairs. -/
theorem interleavingIsABijection : Obligations.InterleavingIsABijection :=
  ⟨fun x y => ⟨compact_interleave x y, compact_interleave_ushiftRight x y⟩, compact_spread,
    fun c => (and_mask_eq_spread_compact c).symm, interleave_compact,
    fun x y => Prod.ext (compact_interleave x y) (compact_interleave_ushiftRight x y)⟩

/-- Two indices of `n` bits interleave to a code of `2 n` bits (R131). -/
theorem interleave_toNat_lt {x y : U32} {n : Nat} (hn : n < 32) (hx : x.toNat < 2 ^ n) (hy : y.toNat < 2 ^ n) :
    (interleave x y).toNat < 2 ^ (2 * n) := by
  rw [BitVec.toNat_lt_iff_getLsbD_eq_false _ hn] at hx hy
  rw [BitVec.toNat_lt_iff_getLsbD_eq_false _ (by omega)]
  intro k
  obtain ⟨i, rfl | rfl⟩ := k.even_or_odd'
  · rw [← Nat.mul_add, interleave_getLsbD_even, hx]
  · rw [← Nat.add_assoc, ← Nat.mul_add, interleave_getLsbD_odd, hy]

/-- Settles O35: the bits of a code are those of its indices, whether they are all 0 or not. -/
theorem codesOfSmallIndicesHaveZeroUpperBits : Obligations.CodesOfSmallIndicesHaveZeroUpperBits := by
  refine ⟨fun x y hx hy => interleave_toNat_lt (n := 26) (by decide) hx hy, fun x y k _ => ⟨?_, ?_⟩⟩
  · have hj : 52 + 2 * k = 2 * (26 + k) := by omega
    rw [hj, interleave_getLsbD_even]
  · have hj : 53 + 2 * k = 2 * (26 + k) + 1 := by omega
    rw [hj, interleave_getLsbD_odd]

/-! ## The four operations complete (R122, R124, R127, R129) -/

/-- A 32-bit operand is wires 31:0 of its port (R50). -/
theorem operandIndex_getLsbD (a : U64) {i : Nat} (hi : i < 32) : (operandIndex a).getLsbD i = a.getLsbD i := by
  rw [operandIndex, BitVec.getLsbD_setWidth, decide_eq_true hi, Bool.true_and]

/-- A 32-bit result stands on wires 31:0 of its port, and wires 63:32 are 0 (R51). -/
theorem resultIndex_getLsbD (v : U32) {i : Nat} (hi : i < 32) :
    (resultIndex v).getLsbD i = v.getLsbD i ∧ (resultIndex v).getLsbD (32 + i) = false := by
  have hi64 : i < 64 := by omega
  rw [resultIndex, BitVec.getLsbD_setWidth, BitVec.getLsbD_setWidth, decide_eq_true hi64,
    BitVec.getLsbD_of_ge v (32 + i) (by omega)]
  exact ⟨Bool.true_and _, Bool.and_false _⟩

/-- Settles O19: the response holds the spread index of the low 32 wires. -/
theorem spreadAnswersSpreadBits : Obligations.SpreadAnswersSpreadBits := by
  intro a b s
  obtain ⟨t, hexec, haccepts⟩ := exec_completes (.spread a b) s
  refine ⟨_, t, hexec, haccepts, fun i hi => ?_, rfl⟩
  rw [respond_spread, spread_getLsbD_even, spread_getLsbD_odd, operandIndex_getLsbD a hi]
  exact ⟨rfl, rfl⟩

/-- Settles O20: the response holds the code of the low 32 wires of both ports. -/
theorem interleaveAnswersAlternatingBits : Obligations.InterleaveAnswersAlternatingBits := by
  intro a b s
  obtain ⟨t, hexec, haccepts⟩ := exec_completes (.interleave a b) s
  refine ⟨_, t, hexec, haccepts, fun i hi => ?_, rfl⟩
  rw [respond_interleave, interleave_getLsbD_even, interleave_getLsbD_odd, operandIndex_getLsbD a hi,
    operandIndex_getLsbD b hi]
  exact ⟨rfl, rfl⟩

/-- Settles O21: the response holds the compacted code, zero-extended. -/
theorem compactAnswersEvenBits : Obligations.CompactAnswersEvenBits := by
  intro a b s
  obtain ⟨t, hexec, haccepts⟩ := exec_completes (.compact a b) s
  refine ⟨_, t, hexec, haccepts, fun i hi => ?_, rfl⟩
  rw [respond_compact, ← compact_getLsbD_of_lt a hi]
  exact resultIndex_getLsbD _ hi

/-- Settles O22: each result port holds one axis of the code, zero-extended. -/
theorem deinterleaveAnswersEvenAndOddBits : Obligations.DeinterleaveAnswersEvenAndOddBits := by
  intro a b s
  obtain ⟨t, hexec, haccepts⟩ := exec_completes (.deinterleave a b) s
  refine ⟨_, t, hexec, haccepts, fun i hi => ?_, fun i hi => ?_⟩
  · rw [respond_deinterleave, ← compact_getLsbD_of_lt a hi]
    exact resultIndex_getLsbD _ hi
  · rw [respond_deinterleave, ← compact_ushiftRight_getLsbD_of_lt a hi]
    exact resultIndex_getLsbD _ hi

end Sys2Proof.Machine

/-! # Proofs: the compositions (43_encode_decode.md) -/

namespace Sys2Proof.Machine

/-! ## The normalized value before any rounding (R101) -/

/-- The formula of R101 over the reals: how many cells the coordinate `x` lies above `min`. -/
def normalized (min range x : ℚ) : ℚ := 2 ^ 26 * (x - min) / range

section
variable {min range x y δ : ℚ}

theorem normalized_sub_normalized : normalized min range x - normalized min range y = 2 ^ 26 * (x - y) / range := by
  rw [normalized, normalized, ← sub_div]
  ring

theorem abs_cells (hpos : 0 < range) : |2 ^ 26 * x / range| = 2 ^ 26 * |x| / range := by
  rw [abs_div, abs_mul, abs_of_pos hpos, abs_of_pos (by norm_num : (0 : ℚ) < 2 ^ 26)]

/-- A cell of an axis whose range is at least 128 is at least 2^-19 wide. -/
theorem abs_cells_le (h128 : 128 ≤ range) (h : |x| ≤ δ) : |2 ^ 26 * x / range| ≤ 2 ^ 19 * δ := by
  have hpos : 0 < range := by linarith
  have hδ : 0 ≤ 2 ^ 19 * δ := mul_nonneg (by norm_num) ((abs_nonneg x).trans h)
  rw [abs_cells hpos, div_le_iff₀ hpos]
  linarith [mul_le_mul_of_nonneg_left h128 hδ]

/-- A cell of an axis whose range is at most 512 is at most 2^-17 wide. -/
theorem abs_sub_min_lt (hpos : 0 < range) (h512 : range ≤ 512) (h : |normalized min range x| < 2 ^ 33) :
    |x - min| < 2 ^ 16 := by
  rw [normalized, abs_cells hpos, div_lt_iff₀ hpos] at h
  linarith

/-- Less than one cell apart in normalized values is less than a cell's width apart (R113). -/
theorem abs_sub_lt_cell (hpos : 0 < range) (h : |normalized min range x - normalized min range y| < 1) :
    |x - y| < range / 2 ^ 26 := by
  rw [normalized_sub_normalized, abs_cells hpos, div_lt_one hpos] at h
  rwa [lt_div_iff₀' (by norm_num)]

/-- The exact centre of cell `i` normalizes to `i + 1/2` (R146). -/
theorem normalized_cellCentre (hpos : 0 < range) (hmin : min = -(range / 2)) (i : U32) :
    normalized min range (cellCentre range i) = i.toNat + 1 / 2 := by
  rw [normalized, cellCentre, hmin, div_eq_iff hpos.ne']
  ring

theorem normalized_mem_domain (hpos : 0 < range) (hlo : min ≤ x) (hhi : x ≤ min + range) :
    0 ≤ normalized min range x ∧ normalized min range x ≤ 2 ^ 26 := by
  refine ⟨div_nonneg (by linarith) hpos.le, ?_⟩
  rw [normalized, div_le_iff₀ hpos]
  linarith

end

/-! ## Truncation to an index, in cells (R78) -/

/-- What lies in cell `i` is truncated to `i`. -/
theorem f2u32_eq_of_mem_cell {p : F64} {i : U32} (hp : isFinite p = true) (hlo : (i.toNat : ℚ) < val p)
    (hhi : val p < i.toNat + 1) : f2u32 p = i := by
  have hi : (i.toNat : ℚ) + 1 ≤ 2 ^ 32 := by exact_mod_cast i.isLt
  have htrunc := f2u32_of_lt_two_pow hp ((Nat.cast_nonneg _).trans_lt hlo) (hhi.trans_le hi)
  have hfloor : ⌊val p⌋ = (i.toNat : ℤ) := Int.floor_eq_iff.2 ⟨hlo.le, hhi⟩
  exact BitVec.eq_of_toNat_eq (by exact_mod_cast htrunc.trans hfloor)

/-- The value truncated is at most half a cell, and what it lies below 0, away from the middle of its cell. -/
theorem f2u32_near {p : F64} {δ : ℚ} (hp : isFinite p = true) (hδ : 0 ≤ δ ∧ δ ≤ 1) (hlo : -δ ≤ val p)
    (hhi : val p < 2 ^ 32) : |val p - ((f2u32 p).toNat + 1 / 2)| ≤ 1 / 2 + δ := by
  rw [abs_le]
  obtain hneg | hpos := le_or_gt (val p) 0
  · rw [f2u32_of_nonpos hp hneg, BitVec.toNat_ofNat]
    constructor <;> norm_num <;> linarith
  · have hfloor : (((f2u32 p).toNat : ℤ) : ℚ) = (⌊val p⌋ : ℤ) := by rw [f2u32_of_lt_two_pow hp hpos hhi]
    rw [Int.cast_natCast] at hfloor
    rw [hfloor]
    constructor <;> linarith [Int.floor_le (val p), Int.lt_floor_add_one (val p)]

/-! ## The errors of both functions on one axis, counted in cells (R146) -/

/-- What the round trips rest on of one axis: its domain is symmetric around 0 and of a usual size, and its decoded
coordinates are near the centres of their cells. -/
structure GridAxis (min range : F64) : Prop where
  finite_min : isFinite min = true
  finite_range : isFinite range = true
  val_min : val min = -(val range / 2)
  bounds : 128 ≤ val range ∧ val range ≤ 512
  denorm_near : ∀ i : U32, isFinite (denormAxis i min range) = true ∧
    |val (denormAxis i min range) - cellCentre (val range) i| ≤ 1 / 2 ^ 38

theorem latGridAxis : GridAxis minLat latRange where
  finite_min := isFinite_minLat
  finite_range := isFinite_latRange
  val_min := by
    rw [val_minLat, val_latRange_eq_two_mul]
    ring
  bounds := val_latRange_bounds
  denorm_near := denormLat_near

theorem lonGridAxis : GridAxis minLon lonRange where
  finite_min := isFinite_minLon
  finite_range := isFinite_lonRange
  val_min := by
    rw [val_minLon, val_lonRange]
    norm_num
  bounds := by
    rw [val_lonRange]
    norm_num
  denorm_near := by
    rw [val_lonRange]
    exact denormLon_near

section
variable {min range : F64} (A : GridAxis min range)
include A

theorem GridAxis.range_pos : 0 < val range := by linarith [A.bounds.1]

/-- The subtraction and the division round, the multiplication does not: at most 2^-18 of a cell together. -/
theorem GridAxis.multiplyFirst_near {v : F64} (hv : isFinite v = true)
    (hn : |normalized (val min) (val range) (val v)| < 2 ^ 33) :
    isFinite (multiplyFirst range (fsub v min)) = true ∧
      |val (multiplyFirst range (fsub v min)) - normalized (val min) (val range) (val v)| ≤ 1 / 2 ^ 18 := by
  have hdiff := abs_sub_min_lt A.range_pos A.bounds.2 hn
  obtain ⟨htfin, hterr⟩ := (fsub_roundsTo hv A.finite_min).error hdiff (by norm_num)
  have htlt : |val (fsub v min)| < 2 ^ 998 := by
    calc |val (fsub v min)| ≤ 2 ^ 17 := by
          linarith [abs_sub_abs_le_abs_sub (val (fsub v min)) (val v - val min)]
      _ < 2 ^ 998 := pow_lt_pow_right₀ one_lt_two (by norm_num)
  obtain ⟨hufin, huval⟩ := fmul_scale_exact htfin htlt
  have hnear : |val (fmul scale (fsub v min)) / val range - normalized (val min) (val range) (val v)| ≤ 1 / 2 ^ 19 := by
    rw [huval, normalized, ← sub_div, ← mul_sub]
    exact (abs_cells_le A.bounds.1 hterr).trans_eq (by norm_num)
  obtain ⟨hfin, herr⟩ := (fdiv_roundsTo hufin A.finite_range A.range_pos.ne').error_of_near hnear (n := 34)
    (by linarith) (by norm_num)
  exact ⟨hfin, herr.trans (by norm_num)⟩

/-- The decoded coordinate of cell `i` is within 2^-19 of a cell of its centre. -/
theorem GridAxis.normalized_denormAxis_near (i : U32) :
    |normalized (val min) (val range) (val (denormAxis i min range)) - (i.toNat + 1 / 2)| ≤ 1 / 2 ^ 19 := by
  rw [← normalized_cellCentre A.range_pos A.val_min, normalized_sub_normalized]
  exact (abs_cells_le A.bounds.1 (A.denorm_near i).2).trans_eq (by norm_num)

/-- A decoded index is encoded to itself: the centre of the cell is half a cell from either edge, far more than the errors
of both directions (R146). -/
theorem GridAxis.normAxis_denormAxis (i : U32) : normAxis (denormAxis i min range) min range = i := by
  have hi : (i.toNat : ℚ) < 2 ^ 32 := by exact_mod_cast i.isLt
  have hi0 : (0 : ℚ) ≤ i.toNat := Nat.cast_nonneg _
  have hcentre := abs_le.1 (A.normalized_denormAxis_near i)
  obtain ⟨hfin, hnear⟩ := A.multiplyFirst_near (A.denorm_near i).1 (abs_lt.2 ⟨by linarith, by linarith⟩)
  rw [abs_le] at hnear
  rw [normAxis_eq]
  exact f2u32_eq_of_mem_cell hfin (by linarith) (by linarith)

/-- A coordinate of the domain and the centre of the cell it is encoded to are half a cell apart, up to the errors of both
directions, which is less than a cell (R146). -/
theorem GridAxis.denormAxis_normAxis_near {v : F64} (hv : isFinite v = true) (hlo : val min ≤ val v)
    (hhi : val v ≤ val min + val range) :
    |val (denormAxis (normAxis v min range) min range) - val v| < val range / 2 ^ 26 := by
  obtain ⟨hn0, hn26⟩ := normalized_mem_domain A.range_pos hlo hhi
  obtain ⟨hfin, hnear⟩ := A.multiplyFirst_near hv (abs_lt.2 ⟨by linarith, by linarith⟩)
  have hcentre := abs_le.1 (A.normalized_denormAxis_near (normAxis v min range))
  rw [abs_le] at hnear
  have hcell := abs_le.1 (f2u32_near hfin (δ := 1 / 2 ^ 18) (by norm_num) (by linarith) (by linarith))
  rw [← normAxis_eq] at hcell
  exact abs_sub_lt_cell A.range_pos (abs_lt.2 ⟨by linarith, by linarith⟩)

end

theorem normLat_denormLat (i : U32) : normLat (denormLat i) = i := latGridAxis.normAxis_denormAxis i

theorem normLon_denormLon (i : U32) : normLon (denormLon i) = i := lonGridAxis.normAxis_denormAxis i

/-! ## Codes and coordinates there and back (R146) -/

/-- De-interleaving a code of ENCODE gives its two indices (R140). -/
theorem decodeCode_encodeCode (a b : F64) :
    decodeCode (encodeCode a b) = (denormLat (normLat a), denormLon (normLon b)) := by
  rw [decodeCode, encodeCode, compact_interleave, compact_interleave_ushiftRight]

/-- Settles O55: on each axis the index comes back, so the code does. -/
theorem encodingADecodedCodeGivesItBack : Obligations.EncodingADecodedCodeGivesItBack := by
  intro c
  rw [decodeCode, encodeCode, normLat_denormLat, normLon_denormLon, interleave_compact]

/-- Settles O56: each axis on its own, its domain ending at MIN + RANGE. -/
theorem roundTripStaysWithinOneCell : Obligations.RoundTripStaysWithinOneCell := by
  rintro a b ⟨ha, halo, hahi⟩ ⟨hb, hblo, hbhi⟩
  rw [decodeCode_encodeCode]
  constructor
  · exact latGridAxis.denormAxis_normAxis_near ha halo (by rwa [val_latRange_eq_sub, add_sub_cancel])
  · exact lonGridAxis.denormAxis_normAxis_near hb hblo (by rwa [val_lonRange_eq_sub, add_sub_cancel])

/-! ## The upper bits of a code (R145) -/

theorem encodeCode_toNat_lt {a b : F64} (ha : (normLat a).toNat < 2 ^ 26) (hb : (normLon b).toNat < 2 ^ 26) :
    (encodeCode a b).toNat < 2 ^ 52 := interleave_toNat_lt (n := 26) (by decide) ha hb

section
variable {min max range below second pred v : F64} (T : AxisTop min max range below second pred)
include T

/-- Below the top two patterns of the domain the index has 26 bits (R104(d)). -/
theorem AxisTop.normAxis_lt (hv : isFinite v = true) (hlo : val min ≤ val v) (hle : val v ≤ val max) (hmax : v ≠ max)
    (hbelow : v ≠ below) : (normAxis v min range).toNat < 2 ^ 26 := by
  obtain ⟨-, -, hindex⟩ := T.below_top hv hlo (T.val_le_second hv hle hmax hbelow)
  exact Nat.lt_of_le_pred (by norm_num) hindex

/-- The top two patterns of the domain set bit 26 of their index (R104(b), (c)). -/
theorem AxisTop.normAxis_getLsbD (h : v = max ∨ v = below) : (normAxis v min range).getLsbD 26 = true := by
  have hsub : fsub v min = range := by
    obtain rfl | rfl := h
    · exact T.fsub_max
    · exact T.fsub_below
  rw [T.normAxis_eq_of_fsub hsub]
  rfl

end

/-- Settles O54: bits 52 and 53 of the code are bits 26 of the two indices. -/
theorem inDomainCodesHaveZeroUpperBits : Obligations.InDomainCodesHaveZeroUpperBits := by
  refine ⟨fun a b => encodeCode_toNat_lt, ?others, fun a b h => ?lat, fun a b h => ?lon⟩
  case others =>
    rintro a b ⟨ha, halo, hahi⟩ ⟨hb, hblo, hbhi⟩ hamax habelow hbmax hbbelow
    exact encodeCode_toNat_lt (latTop.normAxis_lt ha halo hahi hamax habelow)
      (lonTop.normAxis_lt hb hblo hbhi hbmax hbbelow)
  case lat => exact (interleave_getLsbD_even _ _ 26).trans (latTop.normAxis_getLsbD h)
  case lon => exact (interleave_getLsbD_odd _ _ 26).trans (lonTop.normAxis_getLsbD h)

/-! ## ENCODE and DECODE complete, and are the compositions of the unit operations (R141 to R143) -/

/-- Settles O23: the response holds the code of the two indices. -/
theorem encodeAnswersTheInterleavedIndices : Obligations.EncodeAnswersTheInterleavedIndices := by
  intro a b s
  obtain ⟨t, hexec, haccepts⟩ := exec_completes (.encode a b) s
  refine ⟨_, t, hexec, haccepts, fun i _ => ?_, rfl⟩
  rw [respond_encode, interleave_getLsbD_even, interleave_getLsbD_odd]
  exact ⟨rfl, rfl⟩

/-- Settles O24: the two indices are the compacted even and odd bits of the code. -/
theorem decodeAnswersTheCellCentres : Obligations.DecodeAnswersTheCellCentres := by
  intro a b s
  obtain ⟨t, hexec, haccepts⟩ := exec_completes (.decode a b) s
  refine ⟨_, t, compact a, compact (a >>> 1), hexec, haccepts, fun i hi => ?_, rfl, rfl⟩
  exact ⟨compact_getLsbD_of_lt a hi, compact_ushiftRight_getLsbD_of_lt a hi⟩

/-- An index forwarded from a result port to an operand port is unchanged (R50, R51, R56). -/
@[simp] theorem operandIndex_resultIndex (i : U32) : operandIndex (resultIndex i) = i :=
  BitVec.setWidth_setWidth_of_le i (by decide)

/-- Settles O53: the unit operations forward whole indices to each other. -/
theorem compositionsAreTheUnitOperations : Obligations.CompositionsAreTheUnitOperations := by
  intro a b
  constructor
  · rw [respond_encode, respond_norm, respond_interleave, operandIndex_resultIndex, operandIndex_resultIndex]
  · rw [respond_decode, respond_deinterleave, respond_denorm, operandIndex_resultIndex, operandIndex_resultIndex]

end Sys2Proof.Machine

/-! # Proofs: exceptions (60_exceptions.md) -/

namespace Sys2Proof.Machine

/-- Settles O2: an edge is a reset edge, accepts a request or idles, and each of the three answers a next state. -/
theorem everyStepAnswersANextState : Obligations.EveryStepAnswersANextState := by
  intro s
  obtain ⟨-, hreset⟩ | ⟨_, -, -, haccept⟩ | ⟨-, -, hidle⟩ := step_cases s
  · exact ⟨_, hreset⟩
  · exact ⟨_, haccept⟩
  · exact ⟨_, hidle⟩

end Sys2Proof.Machine

/-! # Proofs: reset and hazards (70_reset_and_hazards.md) -/

namespace Sys2Proof.Machine

/-! ## The responses of a list of slots -/

/-- The responses in a list of slots: the data of the valid ones, in the list's order (R182). -/
def responses (slots : List Slot) : List Response := (slots.filter fun slot => slot.v).map fun slot => slot.rsp

theorem State.outstanding_eq (s : State) : s.outstanding = responses s.pipe.reverse := rfl

theorem responses_append (older younger : List Slot) :
    responses (older ++ younger) = responses older ++ responses younger := by
  rw [responses, List.filter_append, List.map_append, responses, responses]

theorem responses_cons (slot : Slot) (younger : List Slot) :
    responses (slot :: younger) = responses [slot] ++ responses younger := responses_append [slot] younger

theorem responses_of_valid {slot : Slot} (h : slot.v = true) : responses [slot] = [slot.rsp] := by
  simp [responses, h]

theorem responses_of_invalid {slot : Slot} (h : slot.v = false) : responses [slot] = [] := by
  simp [responses, h]

theorem responses_eq_nil_iff {slots : List Slot} : responses slots = [] ↔ ∀ slot ∈ slots, slot.v = false := by
  simp [responses]

theorem logDelivery_eq (delivered : List Response) (out : Slot) :
    logDelivery delivered out = delivered ++ responses [out] := by
  cases h : out.v <;> simp [logDelivery, responses, h]

/-- Nothing is outstanding exactly where no slot is valid (R182). -/
theorem State.outstanding_eq_nil_iff {s : State} : s.outstanding = [] ↔ ∀ slot ∈ s.pipe, slot.v = false := by
  simp [State.outstanding_eq, responses_eq_nil_iff]

/-! ## One edge as a function of the state -/

/-- The slot an edge without reset puts into the delay line: the response of the request it accepts, or a slot with
valid bit 0 (R182). -/
def State.entering (s : State) : Slot :=
  match s.presented with
  | some i => ⟨true, respond i⟩
  | none => s.bubble

/-- The slot whose response the port carries in this cycle (R182). -/
def State.onPort (s : State) : Slot := s.outgoing s.entering

/-- The delay line after the coming edge (R182, R185). -/
def State.nextPipe (s : State) : List Slot :=
  if s.inp.rst then clearedPipe s.edges s.pipe.length else (s.entering :: s.pipe).dropLast

/-- The state after the coming edge, whichever kind of edge it is. -/
def State.next (s : State) : State := s.edge s.nextPipe s.onPort

theorem State.entering_of_presented {s : State} {i : Instr} (h : s.presented = some i) :
    s.entering = ⟨true, respond i⟩ := by
  simp [State.entering, h]

theorem State.entering_of_not_presented {s : State} (h : s.presented = none) : s.entering = s.bubble := by
  simp [State.entering, h]

/-- In a cycle with `rst = 1` no request is accepted (R181). -/
theorem State.presented_of_rst {s : State} (h : s.inp.rst = true) : s.presented = none := by
  simp [State.presented, h]

/-- The wires that say whether a request is accepted (R181). -/
theorem State.entering_v (s : State) : s.entering.v = (s.inp.reqValid && !s.inp.rst) := by
  cases h : s.inp.reqValid && !s.inp.rst <;> simp [State.entering, State.presented, h]

theorem State.entering_v_of_rst {s : State} (h : s.inp.rst = true) : s.entering.v = false := by
  rw [State.entering_v, h, Bool.not_true, Bool.and_false]

theorem State.presented_isSome (s : State) : s.presented.isSome = s.entering.v := by
  rw [State.entering_v, State.presented]
  cases s.inp.reqValid && !s.inp.rst <;> rfl

theorem State.responses_entering (s : State) : responses [s.entering] = s.presented.toList.map respond := by
  cases h : s.presented with
  | some i => rw [State.entering_of_presented h]; rfl
  | none => rw [State.entering_of_not_presented h]; rfl

/-- Every step is the edge that `next` describes: `entering` is an invalid slot wherever no request is accepted. -/
theorem step_eq_next (s : State) : step s = .next s.next := by
  obtain ⟨hr, hs⟩ | ⟨i, hr, hp, hs⟩ | ⟨hr, hp, hs⟩ := step_cases s
  · rw [hs, State.next, State.nextPipe, State.onPort, State.entering_of_not_presented (State.presented_of_rst hr),
      if_pos hr, State.resetEdge]
  · rw [hs, State.next, State.nextPipe, State.onPort, State.entering_of_presented hp, hr]
    rfl
  · rw [hs, State.next, State.nextPipe, State.onPort, State.entering_of_not_presented hp, hr]
    rfl

theorem eq_next_of_step {s t : State} (h : step s = .next t) : t = s.next := by
  rw [step_eq_next, Host.Outcome.next.injEq] at h
  exact h.symm

/-- A run of `k` steps is `next` iterated. -/
theorem stepsTo_iff {k : Nat} {s t : State} : StepsTo k s t ↔ t = State.next^[k] s := by
  induction k generalizing s with
  | zero => exact eq_comm
  | succ k ih => simp [StepsTo, step_eq_next, ih]

@[simp] theorem State.next_pipe (s : State) : s.next.pipe = s.nextPipe := rfl

theorem State.next_delivered (s : State) : s.next.delivered = s.delivered ++ responses [s.onPort] :=
  logDelivery_eq s.delivered s.onPort

theorem State.nextPipe_of_rst {s : State} (h : s.inp.rst = true) :
    s.nextPipe = clearedPipe s.edges s.pipe.length := if_pos h

theorem State.nextPipe_of_not_rst {s : State} (h : s.inp.rst = false) :
    s.nextPipe = (s.entering :: s.pipe).dropLast := by
  simp [State.nextPipe, h]

/-- No edge adds or loses a slot (R182, R185). -/
@[simp] theorem State.nextPipe_length (s : State) : s.nextPipe.length = s.pipe.length := by
  simp [State.nextPipe, apply_ite List.length]

@[simp] theorem State.iterate_next_pipe_length (k : Nat) (s : State) :
    (State.next^[k] s).pipe.length = s.pipe.length := by
  induction k generalizing s with
  | zero => rfl
  | succ k ih => rw [Function.iterate_succ_apply, ih, State.next_pipe, State.nextPipe_length]

/-- A valid slot after an edge entered at that edge or was there before (R182). -/
theorem State.mem_nextPipe_of_valid {s : State} {slot : Slot} (h : slot ∈ s.nextPipe) (hv : slot.v = true) :
    slot = s.entering ∨ slot ∈ s.pipe := by
  cases hr : s.inp.rst with
  | true =>
    rw [State.nextPipe_of_rst hr] at h
    simp [clearedPipe_invalid h] at hv
  | false =>
    rw [State.nextPipe_of_not_rst hr] at h
    exact s.mem_shiftIn_pipe s.entering h

/-! ## The response port -/

/-- Where the delay line has a slot, the port carries the oldest (R182). -/
theorem State.onPort_of_getLast? {s : State} {slot : Slot} (h : s.pipe.getLast? = some slot) : s.onPort = slot := by
  rw [State.onPort, State.outgoing, List.getLastD_eq_getLast?, h, Option.getD_some]

/-- With LATENCY = 0 the port carries the response of the request presented in the same cycle (R182). -/
theorem State.onPort_of_nil {s : State} (h : s.pipe = []) : s.onPort = s.entering := by
  rw [State.onPort, State.outgoing, h, List.getLastD_nil]

theorem State.rspValid_eq (s : State) : s.rspValid = s.onPort.v := by
  cases h : s.pipe.getLast? with
  | some slot => rw [State.rspValid_of_getLast? h, State.onPort_of_getLast? h]
  | none =>
    have hnil : s.pipe = [] := List.getLast?_eq_none_iff.1 h
    rw [State.rspValid_of_nil hnil, State.onPort_of_nil hnil, State.entering_v]

theorem State.rspPort_of_rspValid {s : State} (hv : s.rspValid = true) : s.rspPort = s.onPort.rsp := by
  cases h : s.pipe.getLast? with
  | some slot => simp [State.rspPort, hv, h, State.onPort_of_getLast? h]
  | none =>
    have hnil : s.pipe = [] := List.getLast?_eq_none_iff.1 h
    have hreq : (s.inp.reqValid && !s.inp.rst) = true := by rw [← State.rspValid_of_nil hnil, hv]
    simp [State.rspPort, hv, h, State.onPort_of_nil hnil, State.entering, State.presented, hreq]

/-- The port carries a response exactly where its slot is valid, and then the slot's (R182, R184). -/
theorem State.responses_onPort (s : State) : responses [s.onPort] = if s.rspValid then [s.rspPort] else [] := by
  cases hv : s.rspValid with
  | true => rw [State.rspPort_of_rspValid hv, responses_of_valid (by rw [← s.rspValid_eq, hv]), if_pos rfl]
  | false => rw [responses_of_invalid (by rw [← s.rspValid_eq, hv]), if_neg Bool.false_ne_true]

/-! ## The requester's script -/

/-- What a requester with the script `cycles` drives: past its script it presents nothing (log 4). -/
def padIdle (cycles : List Inputs) : List Inputs := cycles.headD Inputs.idle :: cycles.tail

theorem State.scripted_script (s : State) (cycles : List Inputs) : (s.scripted cycles).script = padIdle cycles := rfl

theorem State.next_script (s : State) : s.next.script = padIdle s.upcoming := rfl

/-- Each edge takes one cycle off the script. -/
theorem State.iterate_next_script {s : State} {cycles : List Inputs} (k : Nat) (h : s.script = padIdle cycles) :
    (State.next^[k] s).script = padIdle (cycles.drop k) := by
  induction k generalizing s cycles with
  | zero => exact h
  | succ k ih =>
    have hnext : s.next.script = padIdle cycles.tail := by
      rw [State.next_script, (List.cons.inj h).2]
    rw [Function.iterate_succ_apply, ih hnext, List.drop_tail]

/-- No reset in the first `k` cycles of a script (R185). -/
def resetFree (k : Nat) (cycles : List Inputs) : Bool := (cycles.take k).all fun c => !c.rst

@[simp] theorem resetFree_zero (cycles : List Inputs) : resetFree 0 cycles = true := rfl

theorem resetFree_succ (k : Nat) (cycles : List Inputs) :
    resetFree (k + 1) cycles = (!(cycles.headD Inputs.idle).rst && resetFree k cycles.tail) := by
  cases cycles <;> simp [resetFree, Inputs.idle]

theorem resetFree_iff {k : Nat} {cycles : List Inputs} :
    resetFree k cycles = true ↔ ∀ c ∈ cycles.take k, c.rst = false := by
  simp [resetFree]

theorem resetFree_padIdle (k : Nat) (cycles : List Inputs) : resetFree k (padIdle cycles) = resetFree k cycles := by
  cases k with
  | zero => rfl
  | succ k => rw [resetFree_succ, resetFree_succ]; rfl

/-! ## A slot on its way through the delay line (R182, R185) -/

/-- `slot'` is `slot` after edges that kept it where `kept`, and otherwise discarded it: a discarded slot is invalid and
its data unspecified. -/
def Slot.Becomes (kept : Bool) (slot slot' : Slot) : Prop :=
  slot'.v = (kept && slot.v) ∧ (slot'.v = true → slot'.rsp = slot.rsp)

theorem Slot.Becomes.refl (slot : Slot) : slot.Becomes true slot := ⟨(Bool.true_and _).symm, fun _ => rfl⟩

theorem Slot.Becomes.trans {kept kept' : Bool} {slot slot' slot'' : Slot} (h : slot.Becomes kept slot')
    (h' : slot'.Becomes kept' slot'') : slot.Becomes (kept && kept') slot'' := by
  obtain ⟨hv, hrsp⟩ := h
  obtain ⟨hv', hrsp'⟩ := h'
  refine ⟨by rw [hv', hv, ← Bool.and_assoc, Bool.and_comm kept'], fun hvalid => ?_⟩
  have hvalid' : slot'.v = true := (Bool.and_eq_true_iff.1 (hv' ▸ hvalid)).2
  rw [hrsp' hvalid, hrsp hvalid']

/-- An edge moves every slot one place on, a reset edge discarding it. -/
theorem State.nextPipe_getElem? {s : State} {k : Nat} {slot : Slot} (hk : k < s.pipe.length)
    (h : (s.entering :: s.pipe)[k]? = some slot) :
    ∃ slot', s.nextPipe[k]? = some slot' ∧ slot.Becomes (!s.inp.rst) slot' := by
  cases hr : s.inp.rst with
  | true =>
    rw [State.nextPipe_of_rst hr]
    have hk' : k < (clearedPipe s.edges s.pipe.length).length := by rwa [clearedPipe_length]
    have hv := clearedPipe_invalid (List.getElem_mem hk')
    exact ⟨_, List.getElem?_eq_getElem hk', by simp [Slot.Becomes, hv]⟩
  | false =>
    refine ⟨slot, ?_, .refl slot⟩
    rw [State.nextPipe_of_not_rst hr, List.getElem?_dropLast, List.length_cons, Nat.add_sub_cancel, if_pos hk, h]

/-- A slot with `k` places before it is `k` edges later at the end of these places, unless a reset discarded it. -/
theorem State.iterate_next_pipe_getElem? {s : State} {j : Nat} {slot : Slot} (k : Nat) (hk : j + k < s.pipe.length)
    (h : s.pipe[j]? = some slot) :
    ∃ slot', (State.next^[k] s).pipe[j + k]? = some slot' ∧ slot.Becomes (resetFree k s.script) slot' := by
  induction k generalizing s j slot with
  | zero => exact ⟨slot, h, .refl slot⟩
  | succ k ih =>
    obtain ⟨mid, hmid, hbecomes⟩ := State.nextPipe_getElem? (s := s) (k := j + 1) (by omega) h
    obtain ⟨last, hlast, hbecomes'⟩ := ih (s := s.next) (j := j + 1) (by simp; omega) hmid
    refine ⟨last, ?_, ?_⟩
    · rw [Function.iterate_succ_apply, ← hlast, Nat.add_right_comm, Nat.add_assoc]
    · rw [State.next_script, resetFree_padIdle] at hbecomes'
      rw [resetFree_succ]
      exact hbecomes.trans hbecomes'

/-- The port `LATENCY` edges on, LATENCY being at least 1: it carries the slot that the first of these edges let enter,
unless a reset at one of the others discarded it. -/
theorem State.entering_becomes_onPort {s : State} (h : s.pipe ≠ []) :
    s.entering.Becomes (resetFree (s.pipe.length - 1) s.upcoming) (State.next^[s.pipe.length] s).onPort := by
  obtain ⟨n, hn⟩ : ∃ n, s.pipe.length = n + 1 := Nat.exists_eq_succ_of_ne_zero (by simpa using h)
  obtain ⟨first, hfirst, hbecomes⟩ := State.nextPipe_getElem? (s := s) (k := 0) (by omega) rfl
  obtain ⟨last, hlast, hbecomes'⟩ := State.iterate_next_pipe_getElem? (s := s.next) n (by simp [hn]) hfirst
  have hport : (State.next^[s.pipe.length] s).onPort = last := by
    apply State.onPort_of_getLast?
    rw [List.getLast?_eq_getElem?, State.iterate_next_pipe_length, hn, Function.iterate_succ_apply, ← hlast,
      Nat.add_sub_cancel, Nat.zero_add]
  rw [State.next_script, resetFree_padIdle] at hbecomes'
  obtain ⟨hv, hrsp⟩ := hbecomes.trans hbecomes'
  rw [hport, hn, Nat.add_sub_cancel]
  refine ⟨?_, hrsp⟩
  rw [hv, State.entering_v]
  cases s.inp.rst <;> simp

/-- Settles O7: the accepted request's slot enters at the first edge and moves to the end of the delay line in the
LATENCY - 1 edges after it; with LATENCY = 0 the port carries the response in the same cycle. -/
theorem responseIsOnThePortExactlyLatencyCyclesLater : Obligations.ResponseIsOnThePortExactlyLatencyCyclesLater := by
  intro s
  refine ⟨State.next^[s.pipe.length] s, stepsTo_iff.2 rfl, ?_⟩
  have hport : s.entering.Becomes (resetFree (s.pipe.length - 1) s.upcoming) (State.next^[s.pipe.length] s).onPort := by
    by_cases h : s.pipe = []
    · rw [h, List.length_nil, resetFree_zero, Function.iterate_zero_apply, State.onPort_of_nil h]
      exact .refl _
    · exact State.entering_becomes_onPort h
  obtain ⟨hv, hrsp⟩ := hport
  constructor
  · rw [State.rspValid_eq, hv, Bool.and_eq_true_iff, resetFree_iff, State.presented_isSome, and_comm]
  · intro i hi hvalid
    rw [State.rspPort_of_rspValid hvalid, hrsp (by rw [← State.rspValid_eq, hvalid]), State.entering_of_presented hi]

/-! ## The sequence of responses (R182, R192) -/

/-- An edge without reset takes the slot on the port off the delay line and adds the entering one, in order. -/
theorem State.onPort_cons_nextPipe_reverse {s : State} (h : s.inp.rst = false) :
    s.onPort :: s.nextPipe.reverse = s.pipe.reverse ++ [s.entering] := by
  have hlast : (s.entering :: s.pipe).dropLast ++ [s.onPort] = s.entering :: s.pipe := by
    have hport : s.onPort = (s.entering :: s.pipe).getLast (List.cons_ne_nil _ _) := (List.getLast_eq_getLastD _).symm
    rw [hport, List.dropLast_append_getLast]
  rw [State.nextPipe_of_not_rst h, ← List.reverse_concat, hlast, List.reverse_cons]

/-- Settles O8: the delay line read oldest first, with what the edge delivers and what it accepts. -/
theorem edgeWithoutResetKeepsTheResponseSequence : Obligations.EdgeWithoutResetKeepsTheResponseSequence := by
  intro s t hr ht
  rw [eq_next_of_step ht, State.next_delivered, State.outstanding_eq, State.outstanding_eq, State.next_pipe,
    List.append_assoc, ← responses_cons, State.onPort_cons_nextPipe_reverse hr, responses_append,
    State.responses_entering, List.append_assoc]

/-! ## What will be delivered: the quantity every edge conserves (R192) -/

/-- What the slots of a delay line, oldest first, deliver under a script: one slot in each cycle, and nothing more after
the first reset. -/
def laterDeliveries : List Slot → List Inputs → List Response
  | [], _ => []
  | slot :: younger, cycles =>
    responses [slot] ++ if (cycles.headD Inputs.idle).rst then [] else laterDeliveries younger cycles.tail

theorem laterDeliveries_padIdle (slots : List Slot) (cycles : List Inputs) :
    laterDeliveries slots (padIdle cycles) = laterDeliveries slots cycles := by
  cases slots <;> rfl

theorem laterDeliveries_of_invalid {slots : List Slot} (cycles : List Inputs) (h : ∀ slot ∈ slots, slot.v = false) :
    laterDeliveries slots cycles = [] := by
  induction slots generalizing cycles with
  | nil => rfl
  | cons slot younger ih =>
    obtain ⟨hslot, hyounger⟩ := List.forall_mem_cons.1 h
    rw [laterDeliveries, responses_of_invalid hslot, ih _ hyounger, ite_self, List.append_nil]

/-- The youngest slot is delivered unless a reset comes while the older ones leave before it. -/
theorem laterDeliveries_concat (older : List Slot) (slot : Slot) (cycles : List Inputs) :
    laterDeliveries (older ++ [slot]) cycles =
      laterDeliveries older cycles ++ if resetFree older.length cycles then responses [slot] else [] := by
  induction older generalizing cycles with
  | nil => simp [laterDeliveries]
  | cons oldest younger ih =>
    rw [List.cons_append, laterDeliveries, laterDeliveries, ih, List.length_cons, resetFree_succ]
    cases (cycles.headD Inputs.idle).rst <;> simp

/-- In a cycle with `rst = 1` the delay line delivers what is on the port and nothing more (R185). -/
theorem State.laterDeliveries_of_rst {s : State} (h : s.inp.rst = true) :
    laterDeliveries s.pipe.reverse s.script = responses [s.onPort] := by
  cases hpipe : s.pipe.reverse with
  | nil =>
    rw [laterDeliveries, State.onPort_of_nil (List.reverse_eq_nil_iff.1 hpipe),
      responses_of_invalid (State.entering_v_of_rst h)]
  | cons oldest younger =>
    have hport : s.onPort = oldest := State.onPort_of_getLast? (by rw [← List.head?_reverse, hpipe, List.head?_cons])
    rw [laterDeliveries, hport, State.script, List.headD_cons, if_pos h, List.append_nil]

/-- What the delay line delivers from this cycle on, with the entering slot where it survives, is what the port carries
now and what the delay line delivers from the next cycle on (R182, R185). -/
theorem State.laterDeliveries_nextPipe (s : State) :
    responses [s.onPort] ++ laterDeliveries s.nextPipe.reverse s.upcoming =
      laterDeliveries s.pipe.reverse s.script ++
        if resetFree (s.pipe.length - 1) s.upcoming then responses [s.entering] else [] := by
  cases hr : s.inp.rst with
  | true =>
    have hcleared : ∀ slot ∈ s.nextPipe.reverse, slot.v = false := fun slot hslot =>
      clearedPipe_invalid (State.nextPipe_of_rst hr ▸ List.mem_reverse.1 hslot)
    rw [laterDeliveries_of_invalid _ hcleared, State.laterDeliveries_of_rst hr,
      responses_of_invalid (State.entering_v_of_rst hr), ite_self]
  | false =>
    have hfree : resetFree s.pipe.length s.script = resetFree (s.pipe.length - 1) s.upcoming := by
      cases s.pipe.length with
      | zero => rfl
      | succ n => rw [resetFree_succ, State.script, List.headD_cons, hr]; rfl
    calc responses [s.onPort] ++ laterDeliveries s.nextPipe.reverse s.upcoming
        = laterDeliveries (s.onPort :: s.nextPipe.reverse) s.script := by
          rw [laterDeliveries, State.script, List.headD_cons, hr, if_neg Bool.false_ne_true, List.tail_cons]
      _ = laterDeliveries s.pipe.reverse s.script ++
            if resetFree (s.pipe.length - 1) s.upcoming then responses [s.entering] else [] := by
          rw [State.onPort_cons_nextPipe_reverse hr, laterDeliveries_concat, List.length_reverse, hfree]

theorem expectedResponses_padIdle (n : Nat) (cycles : List Inputs) :
    expectedResponses n (padIdle cycles) = expectedResponses n cycles := by
  cases cycles <;> rfl

/-- The script's first cycle contributes the response of the request it accepts, unless a reset discards it (R185,
R192). -/
theorem State.expectedResponses_script (n : Nat) (s : State) :
    expectedResponses n s.script =
      (if resetFree (n - 1) s.upcoming then responses [s.entering] else []) ++ expectedResponses n s.upcoming := by
  rw [State.script, expectedResponses, State.responses_entering, State.presented, resetFree]
  cases s.inp.reqValid && !s.inp.rst <;> simp

/-- The responses delivered so far and those the delay line and the rest of the script will deliver. -/
def State.allDeliveries (s : State) : List Response :=
  s.delivered ++ laterDeliveries s.pipe.reverse s.script ++ expectedResponses s.pipe.length s.script

theorem State.next_allDeliveries (s : State) : s.next.allDeliveries = s.allDeliveries := by
  rw [State.allDeliveries, State.allDeliveries, State.next_script, laterDeliveries_padIdle, expectedResponses_padIdle,
    State.next_delivered, State.next_pipe, State.nextPipe_length, List.append_assoc s.delivered,
    State.laterDeliveries_nextPipe, State.expectedResponses_script]
  simp only [List.append_assoc]

theorem State.iterate_next_allDeliveries (k : Nat) (s : State) :
    (State.next^[k] s).allDeliveries = s.allDeliveries := by
  induction k generalizing s with
  | zero => rfl
  | succ k ih => rw [Function.iterate_succ_apply, ih, State.next_allDeliveries]

/-- Where no slot is valid only the script has something to deliver. -/
theorem State.allDeliveries_of_invalid {s : State} (h : ∀ slot ∈ s.pipe, slot.v = false) :
    s.allDeliveries = s.delivered ++ expectedResponses s.pipe.length s.script := by
  have hreverse : ∀ slot ∈ s.pipe.reverse, slot.v = false := fun slot hslot => h slot (List.mem_reverse.1 hslot)
  rw [State.allDeliveries, laterDeliveries_of_invalid _ hreverse, List.append_nil]

/-! ## The delay line runs out under an idle requester -/

/-- An edge that accepts nothing adds one to the newest slots that are invalid (R182, R185). -/
theorem State.nextPipe_take_invalid {s : State} {k : Nat} (hidle : s.entering.v = false)
    (h : ∀ slot ∈ s.pipe.take k, slot.v = false) : ∀ slot ∈ s.nextPipe.take (k + 1), slot.v = false := by
  intro slot hslot
  cases hr : s.inp.rst with
  | true =>
    rw [State.nextPipe_of_rst hr] at hslot
    exact clearedPipe_invalid (List.mem_of_mem_take hslot)
  | false =>
    rw [State.nextPipe_of_not_rst hr] at hslot
    rw [List.dropLast_eq_take, List.take_take, Nat.min_comm, ← List.take_take] at hslot
    have hmem : slot ∈ s.entering :: s.pipe.take k := List.mem_of_mem_take hslot
    obtain rfl | hmem := List.mem_cons.1 hmem
    · exact hidle
    · exact h slot hmem

theorem State.iterate_next_take_invalid {s : State} (k : Nat) (h : s.script = padIdle []) :
    ∀ slot ∈ (State.next^[k] s).pipe.take k, slot.v = false := by
  induction k with
  | zero => simp
  | succ k ih =>
    have hscript := State.iterate_next_script k h
    have hinp : (State.next^[k] s).inp = Inputs.idle := by
      rw [List.drop_nil] at hscript
      exact (List.cons.inj hscript).1
    rw [Function.iterate_succ_apply']
    exact State.nextPipe_take_invalid (by rw [State.entering_v, hinp]; rfl) ih

/-- The state once a script and then the delay line have run out: the requester is idle and no slot is valid. -/
theorem State.scripted_runs_out (s : State) (cycles : List Inputs) :
    (State.next^[cycles.length + s.pipe.length] (s.scripted cycles)).script = padIdle [] ∧
      ∀ slot ∈ (State.next^[cycles.length + s.pipe.length] (s.scripted cycles)).pipe, slot.v = false := by
  have hend := State.iterate_next_script cycles.length (s.scripted_script cycles)
  rw [List.drop_length] at hend
  rw [Nat.add_comm, Function.iterate_add_apply]
  refine ⟨by simpa using State.iterate_next_script s.pipe.length hend, ?_⟩
  have hinvalid := State.iterate_next_take_invalid s.pipe.length hend
  rwa [List.take_of_length_le (by simp)] at hinvalid

/-- By the time the delay line has run out, a script has delivered what the rules give for it (R192). -/
theorem State.scripted_delivers {s : State} (cycles : List Inputs) (h : s.outstanding = []) :
    (State.next^[cycles.length + s.pipe.length] (s.scripted cycles)).delivered =
      s.delivered ++ expectedResponses s.pipe.length cycles := by
  obtain ⟨hscript, hinvalid⟩ := s.scripted_runs_out cycles
  have hstart : ∀ slot ∈ (s.scripted cycles).pipe, slot.v = false := State.outstanding_eq_nil_iff.1 h
  have hall := State.iterate_next_allDeliveries (cycles.length + s.pipe.length) (s.scripted cycles)
  rw [State.allDeliveries_of_invalid hinvalid, State.allDeliveries_of_invalid hstart, hscript, State.scripted_script,
    expectedResponses_padIdle, expectedResponses_padIdle, expectedResponses, List.append_nil] at hall
  exact hall

/-- Settles O9: every edge conserves the responses delivered and still to be delivered, and in the end none is left to
deliver. -/
theorem deliveredValuesDoNotDependOnTiming : Obligations.DeliveredValuesDoNotDependOnTiming := by
  intro s script h
  exact ⟨_, stepsTo_iff.2 rfl, State.scripted_delivers script h,
    State.outstanding_of_invalid (s.scripted_runs_out script).2⟩

/-! ## Requests on consecutive cycles (R191) -/

theorem presentCycle_rst (i : Instr) : (presentCycle i).rst = false := rfl
theorem presentCycle_reqValid (i : Instr) : (presentCycle i).reqValid = true := rfl

/-- The ports carry the request that is presented (R45, R181). -/
theorem decodePorts_presentCycle (i : Instr) :
    decodePorts (presentCycle i).reqOp (presentCycle i).reqA (presentCycle i).reqB = i :=
  decodingAnEncodedRequestGivesItBack i

theorem expectedResponses_map_presentCycle (n : Nat) (requests : List Instr) :
    expectedResponses n (requests.map presentCycle) = requests.map respond := by
  induction requests with
  | nil => rfl
  | cons i later ih =>
    have hfree : ((later.map presentCycle).take (n - 1)).all (fun d => !d.rst) = true :=
      resetFree_iff.2 fun c hc => by
        obtain ⟨j, -, rfl⟩ := List.mem_map.1 (List.mem_of_mem_take hc)
        exact presentCycle_rst j
    rw [List.map_cons, expectedResponses, hfree, presentCycle_rst, presentCycle_reqValid, decodePorts_presentCycle, ih]
    rfl

/-- Settles O10: a script of requests without a reset is answered whole, in order. -/
theorem requestsOnConsecutiveCyclesAreAnsweredInOrder : Obligations.RequestsOnConsecutiveCyclesAreAnsweredInOrder := by
  intro s requests h
  have hdelivered := State.scripted_delivers (requests.map presentCycle) h
  obtain ⟨hscript, hinvalid⟩ := s.scripted_runs_out (requests.map presentCycle)
  rw [List.length_map] at hdelivered hscript hinvalid
  rw [expectedResponses_map_presentCycle] at hdelivered
  have hidle := (List.cons.inj hscript).1
  exact ⟨_, stepsTo_iff.2 rfl, hdelivered, State.outstanding_of_invalid hinvalid,
    State.rspValid_of_invalid hinvalid (congrArg Inputs.reqValid hidle)⟩

/-! ## Timing does not depend on what is computed (R183, R189(c)) -/

theorem Inputs.SameTiming.refl (c : Inputs) : c.SameTiming c := ⟨rfl, rfl⟩

/-- The valid bits after an edge, by the wires `rst` and `req_valid` and the valid bits before it. -/
theorem State.nextPipe_map_v (s : State) : s.nextPipe.map (fun slot => slot.v) =
    if s.inp.rst then List.replicate (s.pipe.map fun slot => slot.v).length false
    else (s.entering.v :: s.pipe.map fun slot => slot.v).dropLast := by
  cases hr : s.inp.rst with
  | true =>
    rw [State.nextPipe_of_rst hr, if_pos rfl, List.eq_replicate_iff, List.length_map, List.length_map,
      clearedPipe_length]
    refine ⟨rfl, fun v hv => ?_⟩
    obtain ⟨slot, hslot, rfl⟩ := List.mem_map.1 hv
    exact clearedPipe_invalid hslot
  | false => rw [State.nextPipe_of_not_rst hr, if_neg Bool.false_ne_true, List.map_dropLast, List.map_cons]

theorem State.rspValid_eq_getLastD (s : State) :
    s.rspValid = (s.pipe.map fun slot => slot.v).getLastD s.entering.v := by
  rw [State.rspValid_eq, State.onPort, State.outgoing, List.getLastD_map]

theorem forall₂_sameTiming_padIdle {cycles cycles' : List Inputs} (h : List.Forall₂ Inputs.SameTiming cycles cycles') :
    List.Forall₂ Inputs.SameTiming (padIdle cycles) (padIdle cycles') := by
  cases h with
  | nil => exact .cons (.refl _) .nil
  | cons hc hlater => exact .cons hc hlater

section
variable {s s' : State} (h : s.SameTiming s')
include h

theorem State.SameTiming.inp : s.inp.SameTiming s'.inp := (List.forall₂_cons.1 h.1).1

theorem State.SameTiming.upcoming : List.Forall₂ Inputs.SameTiming s.upcoming s'.upcoming :=
  (List.forall₂_cons.1 h.1).2

theorem State.SameTiming.entering_v : s.entering.v = s'.entering.v := by
  obtain ⟨hrst, hvalid⟩ := h.inp
  rw [State.entering_v, State.entering_v, hrst, hvalid]

theorem State.SameTiming.rspValid : s.rspValid = s'.rspValid := by
  rw [State.rspValid_eq_getLastD, State.rspValid_eq_getLastD, h.2, h.entering_v]

theorem State.SameTiming.next : s.next.SameTiming s'.next := by
  refine ⟨forall₂_sameTiming_padIdle h.upcoming, ?_⟩
  rw [State.next_pipe, State.next_pipe, State.nextPipe_map_v, State.nextPipe_map_v, h.inp.1, h.2, h.entering_v]

end

theorem State.SameTiming.iterate_next {s s' : State} (k : Nat) (h : s.SameTiming s') :
    (State.next^[k] s).SameTiming (State.next^[k] s') := by
  induction k generalizing s s' with
  | zero => exact h
  | succ k ih => exact ih h.next

/-- Settles O11: every edge keeps two states of the same timing at the same timing, and the timing says when a response
is on the port. -/
theorem responseTimesDoNotDependOnOperands : Obligations.ResponseTimesDoNotDependOnOperands := by
  intro k s s' t t' h ht ht'
  rw [stepsTo_iff.1 ht, stepsTo_iff.1 ht']
  exact (h.iterate_next k).rspValid

/-! ## The invariant (R182, R186) -/

theorem State.isResponse_entering {s : State} (hv : s.entering.v = true) : IsResponse s.entering.rsp := by
  rw [← State.presented_isSome] at hv
  obtain ⟨i, hi⟩ := Option.isSome_iff_exists.1 hv
  exact ⟨i, by rw [State.entering_of_presented hi]⟩

/-- Settles O13: a valid slot after an edge, and what the edge delivers, was in the delay line or is the response of the
accepted request. -/
theorem everyStepKeepsTheInvariant : Obligations.EveryStepKeepsTheInvariant := by
  rintro s t ⟨hlength, hpipe, hdelivered⟩ ht
  have hslot : ∀ slot, slot = s.entering ∨ slot ∈ s.pipe → slot.v = true → IsResponse slot.rsp := by
    rintro slot (rfl | hmem) hv
    · exact State.isResponse_entering hv
    · exact hpipe slot hmem hv
  rw [eq_next_of_step ht]
  refine ⟨s.nextPipe_length.trans hlength, fun slot hmem hv => hslot slot (State.mem_nextPipe_of_valid hmem hv) hv, ?_⟩
  intro r hr
  obtain hbefore | ⟨hv, rfl⟩ := mem_logDelivery hr
  · exact hdelivered r hbefore
  · exact hslot _ ((s.outgoing_cases s.entering).imp_left And.right) hv

/-! ## Deliveries and the reset edge (R182, R185) -/

/-- Settles O6: the slot an edge delivers is the one on the port. -/
theorem deliveriesAreWhatThePortCarried : Obligations.DeliveriesAreWhatThePortCarried := by
  intro s t ht
  rw [eq_next_of_step ht, State.next_delivered, State.responses_onPort]

theorem step_of_rst {s : State} (h : s.inp.rst = true) : step s = .next s.resetEdge := if_pos h

theorem step_of_idle {s : State} (hr : s.inp.rst = false) (hv : s.inp.reqValid = false) :
    step s = .next s.idleEdge := by
  simp [step, hr, State.presented_none hv]

theorem State.resetEdge_pipe_invalid (s : State) : ∀ slot ∈ s.resetEdge.pipe, slot.v = false := fun _ hslot =>
  clearedPipe_invalid hslot

/-- Where no slot is valid, a response is on the port only with LATENCY = 0 and a request on the ports (R182). -/
theorem State.nil_and_presented_of_rspValid {s : State} (h : ∀ slot ∈ s.pipe, slot.v = false)
    (hv : s.rspValid = true) : s.pipe = [] ∧ s.presented.isSome = true := by
  rw [State.rspValid_eq] at hv
  obtain ⟨hnil, hport⟩ | hmem := s.outgoing_cases s.entering
  · rw [State.onPort, hport] at hv
    exact ⟨hnil, by rw [State.presented_isSome, hv]⟩
  · simp [h _ hmem, State.onPort] at hv

/-- Settles O4: a reset edge leaves a cleared delay line whatever else the input ports carry. -/
theorem resetEdgeDiscardsWhatIsInFlight : Obligations.ResetEdgeDiscardsWhatIsInFlight := by
  intro s hr
  refine ⟨⟨s.resetEdge, step_of_rst hr, clearedPipe_length _ _, s.resetEdge_pipe_invalid,
    State.outstanding_of_invalid s.resetEdge_pipe_invalid, fun hv => ?_,
    deliveriesAreWhatThePortCarried s _ (step_of_rst hr)⟩, fun v op a b => ?_⟩
  · obtain ⟨hnil, hpresented⟩ := State.nil_and_presented_of_rspValid s.resetEdge_pipe_invalid hv
    refine ⟨?_, hpresented⟩
    rw [← List.length_eq_zero_iff, ← clearedPipe_length s.edges s.pipe.length, ← State.resetEdge_pipe, hnil,
      List.length_nil]
  · rw [step_of_rst hr, step_of_rst rfl]
    rfl

/-! ## The step and the input ports (R181, R188) -/

theorem step_of_request {s : State} (hv : s.inp.reqValid = true) (hr : s.inp.rst = false) :
    step s = exec (decodePorts s.inp.reqOp s.inp.reqA s.inp.reqB) s := by
  simp [step, hr, State.presented_some hv hr]

theorem step_of_requestCycle {s : State} {w : RequestWord} (h : s.inp = requestCycle w) :
    step s = exec (decodeWord w) s := by
  rw [step_of_request (by rw [h]; rfl) (by rw [h]; rfl), h]
  rfl

/-- Settles O1: a request word on the ports is decoded from its three fields. -/
theorem stepRunsThePresentedRequest : Obligations.StepRunsThePresentedRequest :=
  ⟨fun _ => step_of_request, fun _ _ => step_of_requestCycle, fun _ _ _ => step_of_requestCycle rfl⟩

/-- The delay line after an edge without reset holds as many slots as before, the entering one first (R182). -/
theorem State.shiftIn_pipe_eq_take (s : State) (entering : Slot) :
    (s.shiftIn entering).pipe = (entering :: s.pipe).take s.pipe.length := by
  rw [State.shiftIn_pipe, List.dropLast_eq_take, List.length_cons, Nat.add_sub_cancel]

/-- On an idle edge the port carries the oldest slot, if the delay line has one (R182). -/
theorem State.responses_outgoing_bubble (s : State) :
    responses [s.outgoing s.bubble] = responses s.pipe.getLast?.toList := by
  rw [State.outgoing, List.getLastD_eq_getLast?]
  cases s.pipe.getLast? with
  | none => exact responses_of_invalid s.bubble_v
  | some slot => rfl

/-- Settles O3: the invalid slot is the bubble. -/
theorem idleEdgeShiftsAnInvalidSlotIn : Obligations.IdleEdgeShiftsAnInvalidSlotIn := by
  intro s hr hv
  refine ⟨s.idleEdge, s.bubble, step_of_idle hr hv, s.bubble_v, s.shiftIn_pipe_eq_take s.bubble, ?delivered, ?script⟩
  case delivered => exact (logDelivery_eq _ _).trans (by rw [State.responses_outgoing_bubble]; rfl)
  case script => cases h : s.upcoming <;> simp [State.script, h]

/-- Settles O5: without a request the edge is a reset edge or an idle edge, and neither reads the request wires. -/
theorem requestWiresWithoutValidHaveNoEffect : Obligations.RequestWiresWithoutValidHaveNoEffect := by
  intro s rst op op' a a' b b'
  cases rst with
  | true => rw [step_of_rst rfl, step_of_rst rfl]; rfl
  | false => rw [step_of_idle rfl rfl, step_of_idle rfl rfl]; rfl

/-! ## Power-up (R187) -/

/-- The reset edge after power-up leaves the delay line of the reset state: both count it as edge 0 (log 3). -/
theorem State.powerUp_resetEdge_pipe : State.powerUp.resetEdge.pipe = State.reset.pipe := by
  have hlength : State.powerUp.pipe.length = Config.latency := by simp [State.powerUp]
  rw [State.resetEdge_pipe, hlength]
  rfl

/-- Settles O16: the edge after power-up is a reset edge, and the requester is idle after it. -/
theorem oneResetEdgeAfterPowerUpSuffices : Obligations.OneResetEdgeAfterPowerUpSuffices :=
  ⟨State.powerUp.resetEdge, step_of_rst rfl, State.powerUp_resetEdge_pipe, State.powerUp.resetEdge_pipe_invalid,
    State.rspValid_of_invalid State.powerUp.resetEdge_pipe_invalid rfl⟩

end Sys2Proof.Machine
